-- ==== Sys2Proof/Word.lean ====
section
/-! DEFINITION. The machine's word types. -/

namespace Sys2Proof

/-- A host-visible register, a command word or one access of the register port: 32 bits (R20, R50). -/
abbrev Word := BitVec 32

/-- A phase or an increment: 64 bits, the integer index in bits 63..32, the fraction in bits 31..0 (R100). -/
abbrev Phase := BitVec 64

/-- The bit pattern of one REAL_FMT value (R6, R53): a binary64 value fills the vector, a binary32 value
stands in bits 31..0 below zeros. DESIGN CHOICE (log 7), safe. -/
abbrev RealBits := BitVec 64

/-- The four-bit, one-bit ... fields of a word are cut out by `BitVec.extractLsb'`; `v[hi:lo]` of R7. -/
abbrev bitsOf (w : Word) (lo len : Nat) : BitVec len := w.extractLsb' lo len

end Sys2Proof
end

