-- ==== Sys2Proof/Config.lean ====
section
/-! DEFINITION. What the spec fixes as numbers (R6), what one build of the hardware fixes (its parameters), and
the values the spec leaves free: constants with no body, so that nothing can be proved about what they are. -/

namespace Sys2Proof.Config

/-- FRAC_BITS (R6). -/
abbrev fracBits : Nat := 32

/-- One unit step, 2^FRAC_BITS (R11, R100). -/
abbrev unitStep : Nat := 2 ^ 32

/-- HALF, half a unit step (R6, R100). -/
abbrev half : Nat := 2 ^ 31

/-- PHASE_BITS as a modulus: phases are below this (R6, R100). -/
abbrev phaseLimit : Nat := 2 ^ 64

/-- ROW_BITS (R6). -/
abbrev rowBits : Nat := 8

/-- ROWS, the rows of a coefficient table (R6). -/
abbrev rows : Nat := 256

/-- MIN_SPAN, the least loop span (R6, R27). -/
abbrev minSpan : Nat := 3

end Sys2Proof.Config

namespace Sys2Proof

/-- REAL_FMT (R6): "IEEE 754 binary32 (alternative binary64)". -/
inductive RealFmt where
  | binary32
  | binary64
  deriving DecidableEq, Repr

/-- The coefficient ROM (R52): three tables of ROWS rows, of 2, 4 and 7 REAL values. -/
structure Rom where
  lin : Vector (Vector RealBits 2) 256
  cub : Vector (Vector RealBits 4) 256
  sinc : Vector (Vector RealBits 7) 256
  deriving DecidableEq, Repr

/-- What one build of the hardware fixes: the parameters a model takes as arguments (R6). They stand in State
as data, so a claim about every state is a claim about every build. DESIGN CHOICE (log 4), safe. -/
structure Hardware where
  /-- BLOCK_CAP, what the register CAPACITY reads (R28). -/
  blockCap : Nat
  /-- WAVE_DEPTH, the number of waveform entries (R51). -/
  waveDepth : Nat
  /-- REAL_FMT. -/
  fmt : RealFmt
  /-- COEF_LIN, COEF_CUB, COEF_SINC (R52, R140). -/
  rom : Rom
  deriving DecidableEq, Repr

namespace Config

/-- WAVE_DEPTH is OPEN, 1 .. 2^32 (R6, S6): one less than the depth of the hardware at hand. Log 4. -/
opaque waveDepthLessOne : BitVec 32

/-- The contents of COEF_LIN are OPEN (R140, S4): row, tap. Log 4. -/
opaque coefLin : Nat → Nat → BitVec 32

/-- The contents of COEF_CUB are OPEN (R140, S4): row, tap. Log 4. -/
opaque coefCub : Nat → Nat → BitVec 32

/-- The contents of COEF_SINC are OPEN (R140, S4): row, tap. Log 4. -/
opaque coefSinc : Nat → Nat → BitVec 32

/-- What WaveHi of an entry holds before the host first writes it (R39: not reset by the core). Log 5. -/
opaque powerOnHi : Nat → BitVec 16

/-- What WaveLo of an entry holds before the host first writes it (R39: not reset by the core). Log 5. -/
opaque powerOnLo : Nat → BitVec 8

/-- The sign and payload of the NaN the hardware writes (R145, S5), one for every value of the counter. Log 6. -/
opaque freeNan : Nat → BitVec 64

/-- What WaveHi of an entry holds after another agent's write of it has raced with a render (R203: undefined), one for
every value of the counter. Log 12. -/
opaque racedHi : Nat → BitVec 16

/-- What WaveLo of that entry holds. Log 12. -/
opaque racedLo : Nat → BitVec 8

/-- What an output slot holds that a render abandoned by reset had written (S3), one for every value of the counter.
Log 22. -/
opaque freeSlot : Nat → BitVec 64

/-- R140: "Each entry is a finite REAL_FMT value". Every finite binary32 pattern is a value of this function and
no other is, so an open table entry passed through it is any finite value. -/
def finite32 (w : BitVec 32) : RealBits :=
  (if bitsOf w 23 8 = 255 then w &&& 0xFF7FFFFF#32 else w).setWidth 64

/-- The hardware at hand: BLOCK_CAP 64 and binary32 are the spec's values (R6); WAVE_DEPTH and the ROM are open.
Log 4. -/
def hardware : Hardware where
  blockCap := 64
  waveDepth := waveDepthLessOne.toNat + 1
  fmt := .binary32
  rom :=
    { lin := Vector.ofFn fun r => Vector.ofFn fun k => finite32 (coefLin r k)
      cub := Vector.ofFn fun r => Vector.ofFn fun k => finite32 (coefCub r k)
      sinc := Vector.ofFn fun r => Vector.ofFn fun k => finite32 (coefSinc r k) }

end Config
end Sys2Proof
end

