-- ==== Sys2Proof/Syntax.lean ====
section
/-! DEFINITION. The commands: one constructor for each row of spec/opcode_table.json (R74). -/

namespace Sys2Proof

/-- The kernels (R12, R36): `K` of a render. -/
inductive Kernel where
  | nearest
  | linear
  | cubic
  | sinc7
  | silence
  deriving DecidableEq, Repr

/-- A command (R72, R74). `loop` and `ext` are the fields LOOP and EXT of the command word (R71); they select the
specialization (R75). The numeric operands of a render come from the register bank (R73). -/
inductive Instr where
  /-- NOP (R170). -/
  | nop
  /-- RENDER.NEAREST (R171). -/
  | renderNearest (loop ext : Bool)
  /-- RENDER.LINEAR (R172). -/
  | renderLinear (loop ext : Bool)
  /-- RENDER.CUBIC (R173). -/
  | renderCubic (loop ext : Bool)
  /-- RENDER.SINC7 (R174). -/
  | renderSinc7 (loop ext : Bool)
  /-- RENDER.SILENCE (R175). QUALITY is a don't-care the word still carries (R72, X4); the term keeps it, log 21. -/
  | renderSilence (quality : BitVec 2) (loop ext : Bool)
  deriving DecidableEq, Repr

/-- The row of spec/opcode_table.json an instruction stands for. -/
def Instr.mnemonic : Instr → String
  | .nop => "NOP"
  | .renderNearest _ _ => "RENDER.NEAREST"
  | .renderLinear _ _ => "RENDER.LINEAR"
  | .renderCubic _ _ => "RENDER.CUBIC"
  | .renderSinc7 _ _ => "RENDER.SINC7"
  | .renderSilence _ _ _ => "RENDER.SILENCE"

/-- K, LOOP and EXT of a render (R72, R160); none for NOP. -/
def Instr.renderOf : Instr → Option (Kernel × Bool × Bool)
  | .nop => none
  | .renderNearest loop ext => some (.nearest, loop, ext)
  | .renderLinear loop ext => some (.linear, loop, ext)
  | .renderCubic loop ext => some (.cubic, loop, ext)
  | .renderSinc7 loop ext => some (.sinc7, loop, ext)
  | .renderSilence _ loop ext => some (.silence, loop, ext)

end Sys2Proof
end

