-- ==== Sys2Proof/WellFormed.lean ====
section
/-! DEFINITION. What a well-formed instruction and a well-formed build of the hardware are. -/

namespace Sys2Proof

/-- The fields of an instruction are typed to their widths in the command word (LOOP and EXT one bit, QUALITY two,
R71), so no term of Instr is ill-formed: each constructor is checked here by having no condition. -/
def Instr.wellFormed : Instr → Bool
  | .nop => true
  | .renderNearest _ _ => true
  | .renderLinear _ _ => true
  | .renderCubic _ _ => true
  | .renderSinc7 _ _ => true
  | .renderSilence _ _ _ => true

/-- A bit pattern of one finite value of the format: exponent field not all ones, and nothing above the format's
width (R53, R140). -/
def finitePattern : RealFmt → RealBits → Bool
  | .binary32, v => decide (v.toNat < 2 ^ 32) && decide (v.extractLsb' 23 8 ≠ 255#8)
  | .binary64, v => decide (v.extractLsb' 52 11 ≠ 2047#11)

/-- Every entry of the ROM is a finite REAL_FMT value (R140). -/
def Rom.finite (fmt : RealFmt) (rom : Rom) : Bool :=
  (rom.lin.toList.all fun row => row.toList.all (finitePattern fmt)) &&
  (rom.cub.toList.all fun row => row.toList.all (finitePattern fmt)) &&
  (rom.sinc.toList.all fun row => row.toList.all (finitePattern fmt))

/-- The parameters are in the ranges of R6 (BLOCK_CAP >= 1, 1 <= WAVE_DEPTH <= 2^32), BLOCK_CAP fits the 32-bit
register CAPACITY (R20, R28; DEDUCED, log 16) and the ROM holds finite values (R140).
A step in another state still computes what the rules say (log 15). -/
def Hardware.wellFormed (h : Hardware) : Bool :=
  decide (1 ≤ h.blockCap) && decide (h.blockCap < 2 ^ 32) &&
  decide (1 ≤ h.waveDepth) && decide (h.waveDepth ≤ 2 ^ 32) && h.rom.finite h.fmt

end Sys2Proof
end

