-- ==== Sys2Proof/Decode.lean ====
section
/-! DEFINITION. The command word decoder (R72), the opcode table (R74), and the encoder (R71). -/

namespace Sys2Proof

/-- Why a command word is reserved (R78, X1 to X3). -/
inductive Reserved where
  /-- OP in 0x2 .. 0xF. -/
  | opcode
  /-- OP = 0x0, but the word is not the zero word. -/
  | nopBits
  /-- OP = 0x1 with bit 7 or any of bits 31..10 set. -/
  | renderBits
  deriving DecidableEq, Repr

/-- One bit as a truth value: a one-bit field. -/
def bit (w : Word) (b : Nat) : Bool := w.getLsbD b

/-- R72: the RENDER word's selection fields. With SILENT = 1 QUALITY chooses nothing. -/
def renderWord (quality : BitVec 2) (silent loop ext : Bool) : Instr :=
  if silent then .renderSilence quality loop ext
  else if quality = 0 then .renderNearest loop ext
  else if quality = 1 then .renderLinear loop ext
  else if quality = 2 then .renderCubic loop ext
  else .renderSinc7 loop ext

/-- R72: decoding of a command word, total, with R78's reserved words rejected by name. -/
def decode (w : Word) : Except Reserved Instr :=
  if bitsOf w 0 4 = 0 then
    if w = 0 then .ok .nop else .error .nopBits
  else if bitsOf w 0 4 = 1 then
    if bit w 7 = false ∧ bitsOf w 10 22 = 0 then
      .ok (renderWord (bitsOf w 4 2) (bit w 6) (bit w 8) (bit w 9))
    else .error .renderBits
  else .error .opcode

/-- The word of a RENDER command from its fields, as R71 places them: bits 31..10 zero, EXT, LOOP, bit 7 zero,
SILENT, QUALITY, OP = 0x1. -/
def renderBits (quality : BitVec 2) (silent loop ext : Bool) : Word :=
  0#22 ++ BitVec.ofBool ext ++ BitVec.ofBool loop ++ 0#1 ++ BitVec.ofBool silent ++ quality ++ 1#4

/-- The command word of an instruction (R71, R74). -/
def encode : Instr → Word
  | .nop => 0x00000000#32
  | .renderNearest loop ext => renderBits 0 false loop ext
  | .renderLinear loop ext => renderBits 1 false loop ext
  | .renderCubic loop ext => renderBits 2 false loop ext
  | .renderSinc7 loop ext => renderBits 3 false loop ext
  | .renderSilence quality loop ext => renderBits quality true loop ext

/-- One row of the opcode table (R74). -/
structure OpcodeRow where
  mnemonic : String
  matchBits : Word
  maskBits : Word
  deriving DecidableEq, Repr

/-- A word matches a row: its bits under the mask are the row's. -/
def OpcodeRow.matches (row : OpcodeRow) (w : Word) : Bool :=
  w &&& row.maskBits == row.matchBits

/-- R74: the opcode map, one row per command. -/
def opcodeTable : List OpcodeRow :=
  [⟨"NOP", 0x00000000#32, 0xFFFFFFFF#32⟩,
   ⟨"RENDER.NEAREST", 0x00000001#32, 0xFFFFFCFF#32⟩,
   ⟨"RENDER.LINEAR", 0x00000011#32, 0xFFFFFCFF#32⟩,
   ⟨"RENDER.CUBIC", 0x00000021#32, 0xFFFFFCFF#32⟩,
   ⟨"RENDER.SINC7", 0x00000031#32, 0xFFFFFCFF#32⟩,
   ⟨"RENDER.SILENCE", 0x00000041#32, 0xFFFFFCCF#32⟩]

/-- The instruction the decoder reads from `nbits` bits numbered as spec/opcode_table.json numbers them; every
command is exactly one 32-bit word (R70). -/
def decodeTableWord (nbits w : Nat) : Option Instr :=
  match decode (BitVec.ofNat 32 (w % 2 ^ nbits)) with
  | .ok i => some i
  | .error _ => none

end Sys2Proof
end

