-- ==== Sys2Proof/Machine/Real.lean ====
section
/-! DEFINITION. REAL arithmetic: IEEE 754 multiplication and addition of REAL_FMT values, each computed exactly and
then rounded once to nearest, ties to even; subnormals kept; overflow to an infinity (R9, R145). -/

namespace Sys2Proof.Machine

/-- A REAL value: a NaN (whose bits are free, S5), an infinity, or (-1)^neg * mant * 2^exp. -/
inductive RealVal where
  | nan
  | inf (neg : Bool)
  | fin (neg : Bool) (mant : Nat) (exp : Int)
  deriving DecidableEq, Repr

/-- The significand's width in bits, the hidden bit counted. -/
def prec : RealFmt → Nat
  | .binary32 => 24
  | .binary64 => 53

/-- The width of the exponent field. -/
def expBits : RealFmt → Nat
  | .binary32 => 8
  | .binary64 => 11

/-- The weight, as a power of two, of the last significand bit of a subnormal value. -/
def minExp : RealFmt → Int
  | .binary32 => -149
  | .binary64 => -1074

/-- The weight, as a power of two, of the last significand bit of the largest finite value. -/
def maxExp : RealFmt → Int
  | .binary32 => 104
  | .binary64 => 971

/-- Positive or negative zero. -/
def RealVal.zero (fmt : RealFmt) (neg : Bool) : RealVal := .fin neg 0 (minExp fmt)

/-- How many bits a natural number takes; none for 0. -/
def bitLength (m : Nat) : Nat := if m = 0 then 0 else Nat.log2 m + 1

/-- m / 2^d rounded to the nearest integer, a tie to the even one. -/
def nearestEven (m d : Nat) : Nat :=
  if 2 ^ d < 2 * (m % 2 ^ d) ∨ (2 * (m % 2 ^ d) = 2 ^ d ∧ m / 2 ^ d % 2 = 1) then m / 2 ^ d + 1
  else m / 2 ^ d

/-- m * 2^e in units of 2^target, rounded to the nearest integer, a tie to the even one. -/
def inUnits (m : Nat) (e target : Int) : Nat :=
  if target ≤ e then m * 2 ^ (e - target).toNat else nearestEven m (target - e).toNat

/-- The weight of the last significand bit of a result whose exact magnitude is m * 2^e: `prec` significant bits,
but never finer than the format's subnormals. -/
def targetExp (fmt : RealFmt) (m : Nat) (e : Int) : Int :=
  max (e + bitLength m - prec fmt) (minExp fmt)

/-- Put a significand of at most 2^prec units in the format's range: a carry out of the top moves the exponent up
by one; past the largest exponent the result is an infinity (R145). -/
def packRange (fmt : RealFmt) (neg : Bool) (q : Nat) (e : Int) : RealVal :=
  if q = 2 ^ prec fmt then
    if maxExp fmt < e + 1 then .inf neg else .fin neg (2 ^ (prec fmt - 1)) (e + 1)
  else if maxExp fmt < e then .inf neg else .fin neg q e

/-- The exact value (-1)^neg * m * 2^e rounded to the format, to nearest with ties to even (R9, R145). -/
def roundReal (fmt : RealFmt) (neg : Bool) (m : Nat) (e : Int) : RealVal :=
  if m = 0 then RealVal.zero fmt neg
  else packRange fmt neg (inUnits m e (targetExp fmt m e)) (targetExp fmt m e)

/-- `real(i)`: an integer converted to REAL_FMT (R9, R122). -/
def realOfInt (fmt : RealFmt) (i : Int) : RealVal := roundReal fmt (decide (i < 0)) i.natAbs 0

/-- `a *r b` (R9). -/
def mulReal (fmt : RealFmt) : RealVal → RealVal → RealVal
  | .nan, _ => .nan
  | _, .nan => .nan
  | .inf a, .inf b => .inf (a != b)
  | .inf a, .fin b m _ => if m = 0 then .nan else .inf (a != b)
  | .fin a m _, .inf b => if m = 0 then .nan else .inf (a != b)
  | .fin a m e, .fin b k f => roundReal fmt (a != b) (m * k) (e + f)

/-- A signed significand. -/
def signed (neg : Bool) (m : Nat) : Int := if neg then -(m : Int) else m

/-- The exact sum of two finite values in units of 2^(min e f). -/
def exactSum (a : Bool) (m : Nat) (e : Int) (b : Bool) (k : Nat) (f : Int) : Int :=
  signed a (m * 2 ^ (e - min e f).toNat) + signed b (k * 2 ^ (f - min e f).toNat)

/-- `a +r b` (R9). An exact zero sum is +0 unless both operands are negative (IEEE 754, round to nearest). -/
def addReal (fmt : RealFmt) : RealVal → RealVal → RealVal
  | .nan, _ => .nan
  | _, .nan => .nan
  | .inf a, .inf b => if a = b then .inf a else .nan
  | .inf a, .fin _ _ _ => .inf a
  | .fin _ _ _, .inf b => .inf b
  | .fin a m e, .fin b k f =>
    let sum := exactSum a m e b k f
    if sum = 0 then RealVal.zero fmt (a && b)
    else roundReal fmt (decide (sum < 0)) sum.natAbs (min e f)

/-- The value a bit pattern stands for. -/
def realOfBits (fmt : RealFmt) (v : RealBits) : RealVal :=
  let frac := v.toNat % 2 ^ (prec fmt - 1)
  let field := v.toNat / 2 ^ (prec fmt - 1) % 2 ^ expBits fmt
  let neg := v.toNat / 2 ^ (prec fmt - 1 + expBits fmt) % 2 == 1
  if field = 2 ^ expBits fmt - 1 then if frac = 0 then .inf neg else .nan
  else if field = 0 then .fin neg frac (minExp fmt)
  else .fin neg (frac + 2 ^ (prec fmt - 1)) (minExp fmt + (field - 1 : Nat))

/-- A bit pattern from its three fields. -/
def realFields (fmt : RealFmt) (neg : Bool) (field frac : Nat) : RealBits :=
  BitVec.ofNat 64 (neg.toNat * 2 ^ (prec fmt - 1 + expBits fmt) + field * 2 ^ (prec fmt - 1) + frac)

/-- The NaN pattern whose sign is bit 63 of `free` and whose payload is taken from its low bits; every NaN pattern
of the format is one of these (S5). -/
def nanBits (fmt : RealFmt) (free : BitVec 64) : RealBits :=
  let payload := free.toNat % 2 ^ (prec fmt - 1)
  realFields fmt free.msb (2 ^ expBits fmt - 1) (if payload = 0 then 1 else payload)

/-- The bit pattern of a value; a NaN's is chosen by `free` (S5). -/
def bitsOfReal (fmt : RealFmt) (free : BitVec 64) : RealVal → RealBits
  | .nan => nanBits fmt free
  | .inf neg => realFields fmt neg (2 ^ expBits fmt - 1) 0
  | .fin neg m e =>
    if m < 2 ^ (prec fmt - 1) then realFields fmt neg 0 m
    else realFields fmt neg (e - minExp fmt + 1).toNat (m - 2 ^ (prec fmt - 1))

end Sys2Proof.Machine
end

