-- ==== Sys2Proof/Machine/State.lean ====
section
/-! DEFINITION. The machine's state as plain data, the reasons a step stops, and the state after reset. -/

namespace Sys2Proof.Machine

/-- The thirteen host-visible registers (R20). -/
inductive Reg where
  | cmd
  | status
  | count
  | vflags
  | phaseLo
  | phaseHi
  | stepLo
  | stepHi
  | start
  | end_
  | loopstart
  | loopend
  | capacity
  deriving DecidableEq, Repr

/-- The fault record's contents (R205): one code of R201 to R204 with the information the spec records. Each is
undefined behaviour of the hardware, so stopping is SAFE: nothing is claimed of what the hardware does. -/
inductive FaultInfo where
  /-- Code 1 (R201): raised at a render's start when the markers break the caller's invariant; the four markers. -/
  | markers (start end_ loopstart loopend : Word)
  /-- Code 2 (R201): raised at a render's start when STEP is NaN, infinite, below zero or >= 2^32; its bits. -/
  | stepDomain (bits : BitVec 64)
  /-- Code 3 (R202): raised by INCR in a render when the sum reaches 2^64; working phase, increment, n. -/
  | phaseOverflow (ph incr : Phase) (n : Nat)
  /-- Code 4 (R202): raised by a fetch in a render outside the waveform memory; index, lane, n. -/
  | fetchRange (index : Int) (lane n : Nat)
  /-- Code 5 (R203): raised when another agent writes the waveform memory during a render; the index written. -/
  | waveRace (index : Nat)
  /-- Code 6 (R204): raised by the write of a reserved command word to CMD; the word. -/
  | reservedCmd (word : Word)
  /-- Code 7 (R204): raised by a reserved register access; the offset, and the data for a write. -/
  | reservedReg (offset : Nat) (data : Option Word)
  deriving DecidableEq, Repr

/-- What the world outside the core can do to it, one operation a step (R81, R53, R220, R203). -/
inductive HostOp where
  /-- `WR`: write a register by its byte offset (R50; log 10). A write to offset 0x00 issues a command (R21). -/
  | wr (offset : Nat) (data : Word)
  /-- `RD`: read a register by its byte offset (R50). -/
  | rd (offset : Nat)
  /-- `WAVE`: write waveform entry `index`, its base part and, where given, its low part (R81, R59). -/
  | wave (index : Nat) (hi : BitVec 16) (lo : Option (BitVec 8))
  /-- Read an output slot (R53). -/
  | rdOut (slot : Nat)
  /-- A write of `word` to CMD, while another agent writes waveform entry `index` at the moment `after` output
  slots of the render it starts have been written (R203; log 12). -/
  | issueRaced (word : Word) (after index : Nat) (hi : BitVec 16) (lo : Option (BitVec 8))
  /-- The reset input is asserted (R220, R222). -/
  | reset
  /-- A write of `word` to CMD, and the reset input asserted at the moment `after` output slots of the render it starts
  have been written, or after it where it ends before (R220; log 22). -/
  | issueReset (word : Word) (after : Nat)
  deriving DecidableEq, Repr

/-- What the core answers to a read of the host. -/
inductive Answer where
  /-- The 32 bits of a register (R50). -/
  | reg (w : Word)
  /-- The REAL value of an output slot (R53). -/
  | out (v : RealBits)
  deriving DecidableEq, Repr

/-- A memory: its listed entries, by element number. An unlisted element is one nothing has written. -/
abbrev Memory (α : Type) := List (Nat × α)

/-- The machine's state. Every field but the last three is the spec's (INVENTORY.md names its rule); `pending`,
`answer` and `freeCtr` are the model's own (logs 1, 11, 6). -/
structure State where
  /-- The parameters of this build: BLOCK_CAP, WAVE_DEPTH, REAL_FMT and the coefficient ROM (R6, R28, R52). -/
  hw : Hardware
  /-- STATUS.BUSY (R22). -/
  busy : Bool
  /-- STATUS.SHORT (R22). -/
  short : Bool
  /-- COUNT (R23). -/
  count : Word
  /-- VFLAGS.HAS_LOOPED (R24). -/
  hasLooped : Bool
  /-- PHASE_LO (R25). -/
  phaseLo : Word
  /-- PHASE_HI (R25). -/
  phaseHi : Word
  /-- STEP_LO (R26). -/
  stepLo : Word
  /-- STEP_HI (R26). -/
  stepHi : Word
  /-- START (R27). -/
  start : Word
  /-- END (R27). -/
  end_ : Word
  /-- LOOPSTART (R27). -/
  loopstart : Word
  /-- LOOPEND (R27). -/
  loopend : Word
  /-- WaveHi, the base parts of the waveform memory (R51). -/
  waveHi : Memory (BitVec 16)
  /-- WaveLo, the low parts of the waveform memory (R51). -/
  waveLo : Memory (BitVec 8)
  /-- OUT, the output memory (R53); an unlisted slot has no value (R62). -/
  out : Memory RealBits
  /-- The fault record: clear, or one code with its info (R205). -/
  fault : Option FaultInfo
  /-- The host's operations still to be performed, the next one first (R29, R65). -/
  pending : List HostOp
  /-- The port's answer to the last read. -/
  answer : Option Answer
  /-- Which free value is taken next. -/
  freeCtr : Nat
  deriving DecidableEq, Repr

/-- The parts of a render's datapath state that are constant from its start to its end (R34, R36, R161). -/
structure Latch where
  kernel : Kernel
  loop : Bool
  ext : Bool
  /-- `incr`, the converted step (R34). -/
  incr : Phase
  /-- `last`, the last index whose own sample is played (R125). -/
  last : Nat
  /-- `span`, LOOPEND - LOOPSTART (R161). -/
  span : Nat
  deriving DecidableEq, Repr

/-- The parts of a render's datapath state that change from slot to slot (R33, R35, R36), with the output memory as
the render has left it so far. -/
structure Work where
  /-- `ph`, the working phase (R33). -/
  ph : Phase
  /-- `looped`, the working copy of HAS_LOOPED (R36). -/
  looped : Bool
  /-- `n`, the output slot counter (R35). -/
  n : Nat
  out : Memory RealBits
  freeCtr : Nat
  deriving DecidableEq, Repr

/-- How a slot loop comes to an end. -/
inductive LoopEnd where
  /-- It exits (R164). -/
  | done (w : Work)
  /-- A rule raises a fault; what was written before it stays in `w` (R177). -/
  | raised (f : FaultInfo) (w : Work)
  deriving DecidableEq, Repr

/-- Why the machine stops. Every one is SAFE: the model claims nothing of what the hardware does from there on. -/
inductive Fault where
  /-- The fault state of R205: raised by the shared operation `raise` when a rule of R201 to R204 raises a fault,
  and by `step` in a state whose fault record is already set. `left` is the faulted state, its record set and
  what was written before the fault kept (R177). The spec calls the behaviour undefined (R200, U1 to U8). -/
  | recorded (info : FaultInfo) (left : State)
  /-- Raised by a host read of an output slot that no render has written since reset: it has no value (R62, S1). S1 names
  no code, so no fault record is set (log 8). -/
  | unwrittenSlot (slot : Nat)
  /-- Raised by a host read of an output slot at BLOCK_CAP or above: there is none (R53). Log 9. -/
  | noSuchSlot (slot : Nat)
  /-- Raised by a host write of a waveform entry at WAVE_DEPTH or above: there is none (R51). Log 9. -/
  | noSuchEntry (index : Nat)
  deriving DecidableEq, Repr

/-- Why an instruction has no meaning. No arm of `exec` refuses. -/
inductive Refusal where
  /-- Raised by an arm of `exec` whose instruction has no meaning yet; SAFE. -/
  | notModelled (mnemonic : String)
  deriving DecidableEq, Repr

/-- The machine right after reset (R39, R220, R221): every register zero, CAPACITY reading BLOCK_CAP, no output slot
with a value, the fault record clear; nothing listed in the waveform memory, which reset does not touch (log 5);
no host operation pending (log 1). -/
def State.reset : State where
  hw := Config.hardware
  busy := false
  short := false
  count := 0
  hasLooped := false
  phaseLo := 0
  phaseHi := 0
  stepLo := 0
  stepHi := 0
  start := 0
  end_ := 0
  loopstart := 0
  loopend := 0
  waveHi := []
  waveLo := []
  out := []
  fault := none
  pending := []
  answer := none
  freeCtr := 0

end Sys2Proof.Machine
end

