-- ==== Sys2Proof/Machine/Ops.lean ====
section
/-! DEFINITION. The shared operations over memory, the waveform and output memories, the entry into the fault state,
and reset, the only way out of it. -/

namespace Sys2Proof.Machine

/-- The value an element was last written with; none where nothing has written it. -/
def Memory.read {α : Type} : Memory α → Nat → Option α
  | [], _ => none
  | (k, v) :: rest, i => if k = i then some v else Memory.read rest i

/-- Write one element, keeping the entries in rising order. -/
def Memory.write {α : Type} : Memory α → Nat → α → Memory α
  | [], i, v => [(i, v)]
  | (k, u) :: rest, i, v =>
    if i < k then (i, v) :: (k, u) :: rest
    else if i = k then (i, v) :: rest
    else (k, u) :: Memory.write rest i v

/-- Every entry's number is above `i`. -/
def Memory.above {α : Type} (i : Nat) : Memory α → Bool
  | [] => true
  | (k, _) :: _ => decide (i < k)

/-- The canonical form: entry numbers strictly rising. An unlisted element has no written value, so no entry can
equal what an unlisted one reads as (log 5). -/
def Memory.wf {α : Type} : Memory α → Bool
  | [] => true
  | (k, _) :: rest => Memory.above k rest && Memory.wf rest

/-- Every entry's number is below `limit`. -/
def Memory.below {α : Type} (limit : Nat) : Memory α → Bool
  | [] => true
  | (k, _) :: rest => decide (k < limit) && Memory.below limit rest

/-- `WaveHi(i)` (R10, R51): what the host last wrote, else what the entry held at power-on (log 5). -/
def State.waveHiAt (s : State) (i : Nat) : BitVec 16 := (s.waveHi.read i).getD (Config.powerOnHi i)

/-- `WaveLo(i)` (R10, R51): what the host last wrote, else what the entry held at power-on (log 5). -/
def State.waveLoAt (s : State) (i : Nat) : BitVec 8 := (s.waveLo.read i).getD (Config.powerOnLo i)

/-- A write of one waveform entry from outside the core: its base part, and its low part where one is given (R81;
an omitted low part is left as it is, log 17). -/
def State.writeWave (s : State) (i : Nat) (hi : BitVec 16) (lo : Option (BitVec 8)) : State :=
  { s with
    waveHi := s.waveHi.write i hi
    waveLo := match lo with
      | some b => s.waveLo.write i b
      | none => s.waveLo }

/-- What a waveform write that has raced with a render leaves: both parts of the entry are free values, for the spec calls
the outcome undefined and reset does not touch the waveform (R203, R220; log 12). -/
def State.racedWave (s : State) (i : Nat) : State :=
  { s.writeWave i (Config.racedHi s.freeCtr) (some (Config.racedLo s.freeCtr)) with freeCtr := s.freeCtr + 1 }

/-- Whether the bits of a value are free (S5). -/
def isNan : RealVal → Bool
  | .nan => true
  | .inf _ => false
  | .fin _ _ _ => false

/-- `OutWrite(n, y)` followed by `n <- n + 1` (R10, R162): slot n takes the value's bit pattern, a NaN's taken from
the free values (S5, log 6). -/
def Work.outWrite (fmt : RealFmt) (w : Work) (y : RealVal) : Work :=
  { w with
    out := w.out.write w.n (bitsOfReal fmt (Config.freeNan w.freeCtr) y)
    n := w.n + 1
    freeCtr := if isNan y then w.freeCtr + 1 else w.freeCtr }

/-- The entry into the fault state: the record takes the code and its info, and the core stops (R205). -/
def raise (f : FaultInfo) (s : State) : Host.Outcome State Fault Refusal :=
  .fault (.recorded f { s with fault := some f })

/-- Reset, the way out of the fault state (R205, R220): every register at its value of R39, the fault record clear, no
output slot with a value (R62); the waveform memory, the ROM and the other parameters are not changed. What the host
still has to do, and the place among the free values, are not the core's to reset (log 18). -/
def State.resetCore (s : State) : State :=
  { State.reset with
    hw := s.hw
    waveHi := s.waveHi
    waveLo := s.waveLo
    pending := s.pending
    freeCtr := s.freeCtr }

/-- Any pattern of the format, from any 64 bits: "any value (REAL_FMT width)" (S3). -/
def anyPattern (fmt : RealFmt) (v : BitVec 64) : RealBits :=
  match fmt with
  | .binary32 => (v.setWidth 32).setWidth 64
  | .binary64 => v

/-- The output memory after the reset of a render that had written slots 0 .. n-1: a free value in each of them, no value
in any other (R220, S3; log 22). -/
def abandonedOut (fmt : RealFmt) (ctr : Nat) : Nat → Memory RealBits
  | 0 => []
  | n + 1 => (abandonedOut fmt ctr n).write n (anyPattern fmt (Config.freeSlot (ctr + n)))

/-- Reset in the middle of a render, which is abandoned (R220): as every reset, but for the slots it had written. -/
def State.abandon (s : State) (w : Work) : State :=
  { s.resetCore with
    out := abandonedOut s.hw.fmt w.freeCtr w.n
    freeCtr := w.freeCtr + w.n }

end Sys2Proof.Machine
end

