-- ==== Sys2Proof/Machine/Nop.lean ====
section
/-! DEFINITION. The meaning of NOP. -/

namespace Sys2Proof.Machine

/-- NOP: nothing changes (R170). -/
def execNop (s : State) : Host.Outcome State Fault Refusal := .next s

end Sys2Proof.Machine
end

