-- ==== Sys2Proof/Machine/Phase.lean ====
section
/-! DEFINITION. The fixed-point phase accumulator's operations (40_phase_accumulator.md, R100 to R109). -/

namespace Sys2Proof.Machine

open Config

/-- INDEX_TRUNC: `idx(p)`, the integer part of a phase (R11, R106). -/
def idx (p : Phase) : Nat := p.toNat / unitStep

/-- `frac(p)`, the fraction of a phase (R11). -/
def frac (p : Phase) : Nat := p.toNat % unitStep

/-- INDEX_ROUND: the index nearest to p, ties toward the higher index, in 65 bits with no wrap (R107). -/
def roundIdx (p : Phase) : Nat := (p.toNat + half) / unitStep

/-- FRAC_ROW: the coefficient row, the top ROW_BITS of the fraction (R108). -/
def row (p : Phase) : Nat := frac p / 2 ^ (fracBits - rowBits)

/-- SET_FLOAT: the step, read as a binary64 value b, converted to floor(b * 2^32) (R101); none where it raises
STEP_DOMAIN: b a NaN, infinite, below zero, or 2^32 and above. -/
def setFloat (step : BitVec 64) : Option Phase :=
  match realOfBits .binary64 step with
  | .nan => none
  | .inf _ => none
  | .fin neg m e =>
    let scaled := if 0 ≤ e + 32 then m * 2 ^ (e + 32).toNat else m / 2 ^ (-(e + 32)).toNat
    if neg = true ∧ m ≠ 0 then none
    else if phaseLimit ≤ scaled then none
    else some (BitVec.ofNat 64 scaled)

/-- INCR: the advance of a phase by an increment (R102); none where it raises PHASE_OVERFLOW. -/
def incrPhase (p d : Phase) : Option Phase :=
  if phaseLimit ≤ p.toNat + d.toNat then none else some (p + d)

/-- SUB_INT: a span of whole samples subtracted from a phase, the fraction kept (R103). -/
def subInt (p : Phase) (span : Nat) : Phase := p - BitVec.ofNat 64 (unitStep * span)

/-- INCR_HALF, modulo 2^64 (R104). -/
def incrHalf (p : Phase) : Phase := BitVec.ofNat 64 half + p

/-- DECR_HALF, modulo 2^64 (R105). -/
def decrHalf (p : Phase) : Phase := p - BitVec.ofNat 64 half

/-- NEAREST and SINC7 work on a phase biased by half a step (R109). -/
def biased : Kernel → Bool
  | .nearest => true
  | .linear => false
  | .cubic => false
  | .sinc7 => true
  | .silence => false

/-- The working phase a render starts from (R161). -/
def workingPhase (k : Kernel) (p : Phase) : Phase := if biased k then incrHalf p else p

/-- The phase a render writes back (R166). -/
def truePhase (k : Kernel) (ph : Phase) : Phase := if biased k then decrHalf ph else ph

/-- How many wraps bring index i down to `last` or below: ceil((i - last) / span) (R163, R167). -/
def wrapCount (i last span : Nat) : Nat := (i - last + (span - 1)) / span

end Sys2Proof.Machine
end

