-- ==== Sys2Proof/Machine/Operands.lean ====
section
/-! DEFINITION. The operands of a render, taken from the register bank at its start (R73, R231). -/

namespace Sys2Proof.Machine

open Config

/-- `PHASE = {PHASE_HI, PHASE_LO}` (R25). -/
def State.phase (s : State) : Phase := s.phaseHi ++ s.phaseLo

/-- `{PHASE_HI, PHASE_LO} <- p` (R25, R166). -/
def State.withPhase (s : State) (p : Phase) : State :=
  { s with phaseHi := p.extractLsb' 32 32, phaseLo := p.extractLsb' 0 32 }

/-- `STEP = {STEP_HI, STEP_LO}` (R26). -/
def State.stepBits (s : State) : BitVec 64 := s.stepHi ++ s.stepLo

/-- The caller's invariant on the markers (R27, R161, R201), with MIN_SPAN. -/
def State.markersOk (s : State) : Bool :=
  decide (s.start.toNat ≤ s.loopstart.toNat) && decide (s.loopstart.toNat < s.loopend.toNat) &&
  decide (s.loopend.toNat ≤ s.end_.toNat) && decide (s.end_.toNat < s.hw.waveDepth) &&
  decide (minSpan ≤ s.loopend.toNat - s.loopstart.toNat)

/-- `rs`, the region's start: by the latch alone (R124). -/
def State.regionStart (s : State) (looped : Bool) : Nat :=
  if looped then s.loopstart.toNat else s.start.toNat

/-- `last`, the last index whose own sample is played (R125). -/
def State.regionLast (s : State) (loop : Bool) : Nat :=
  if loop then s.loopend.toNat - 1 else s.end_.toNat

/-- What a render latches at its start (R160, R161). -/
def State.latch (s : State) (k : Kernel) (loop ext : Bool) (incr : Phase) : Latch where
  kernel := k
  loop := loop
  ext := ext
  incr := incr
  last := s.regionLast loop
  span := s.loopend.toNat - s.loopstart.toNat

/-- The working state a render starts from (R161): the working phase, biased for NEAREST and SINC7, the latch's copy,
n = 0. -/
def State.startWork (s : State) (k : Kernel) : Work where
  ph := workingPhase k s.phase
  looped := s.hasLooped
  n := 0
  out := s.out
  freeCtr := s.freeCtr

end Sys2Proof.Machine
end

