-- ==== Sys2Proof/Machine/Taps.lean ====
section
/-! DEFINITION. Tap-sample fetch and boundary substitution (41_tap_fetch.md, R120 to R133). -/

namespace Sys2Proof.Machine

/-- The number of taps of a kernel (R126). -/
def taps : Kernel → Nat
  | .nearest => 1
  | .linear => 2
  | .cubic => 4
  | .sinc7 => 7
  | .silence => 0

/-- `LB(K)`, the lookback of a kernel (R126): lane k holds offset k - LB(K). -/
def lookback : Kernel → Nat
  | .nearest => 0
  | .linear => 0
  | .cubic => 1
  | .sinc7 => 3
  | .silence => 0

/-- The sample at an index that exists: the base part, and at extended precision the low byte below it, unscaled
(R120, R121). -/
def State.sampleAt (s : State) (ext : Bool) (i : Nat) : Int :=
  if ext then (s.waveHiAt i).toInt * 2 ^ 8 + (s.waveLoAt i).toNat else (s.waveHiAt i).toInt

/-- FETCH (R120, R121): none where it raises FETCH_RANGE, the index outside 0 .. WAVE_DEPTH-1. -/
def State.fetch (s : State) (ext : Bool) (i : Int) : Option Int :=
  if 0 ≤ i ∧ i < s.hw.waveDepth then some (s.sampleAt ext i.toNat) else none

/-- Which waveform index the tap at index j reads: virtual lookback below the region (R127), virtual lookahead above
`last` (R128), its own sample in between (R129). -/
def State.tapIndex (s : State) (loop looped : Bool) (j : Int) : Int :=
  if j < s.regionStart looped then
    if looped then s.loopend.toNat - ((s.regionStart looped : Int) - j) else s.start.toNat
  else if (s.regionLast loop : Int) < j then
    if loop then s.loopstart.toNat + (j - s.loopend.toNat) else s.end_.toNat
  else j

/-- The waveform index lane k of the slot at working index i reads: NEAREST reads i itself, with no substitution (R132);
the others substitute each lane on its own index i + k - LB(K) (R130). -/
def State.laneIndex (s : State) (l : Latch) (looped : Bool) (i k : Nat) : Int :=
  if l.kernel = .nearest then i
  else s.tapIndex l.loop looped ((i : Int) + k - lookback l.kernel)

/-- The samples of `count` lanes from lane k on, lowest lane first; the lowest lane whose fetch is out of range raises
FETCH_RANGE with its index, the lane and n (R123, R202, R206). -/
def State.fetchLanes (s : State) (l : Latch) (w : Work) : Nat → Nat → Except FaultInfo (List Int)
  | 0, _ => .ok []
  | count + 1, k =>
    match s.fetch l.ext (s.laneIndex l w.looped (idx w.ph) k) with
    | none => .error (.fetchRange (s.laneIndex l w.looped (idx w.ph) k) k w.n)
    | some v =>
      match s.fetchLanes l w count (k + 1) with
      | .error f => .error f
      | .ok vs => .ok (v :: vs)

end Sys2Proof.Machine
end

