-- ==== Sys2Proof/Machine/Blend.lean ====
section
/-! DEFINITION. Coefficient multiplexer, scaler and weighted tap blender (42_coefficient_blend.md, R141 to R150). -/

namespace Sys2Proof.Machine

/-- Multiplexer (R141): the coefficients of the row the fraction selects, lane 0 first. NEAREST and SILENCE read none. -/
def coefBits (rom : Rom) (k : Kernel) (r : Fin 256) : List RealBits :=
  match k with
  | .nearest => []
  | .linear => (rom.lin.get r).toList
  | .cubic => (rom.cub.get r).toList
  | .sinc7 => (rom.sinc.get r).toList
  | .silence => []

/-- The coefficient lanes of a slot with working phase ph (R141). -/
def coefs (hw : Hardware) (k : Kernel) (ph : Phase) : List RealVal :=
  (coefBits hw.rom k (Fin.ofNat 256 (row ph))).map (realOfBits hw.fmt)

/-- Scaler (R143): each tap by its coefficient, each product rounded. -/
def products (fmt : RealFmt) (c tap : List RealVal) : List RealVal := List.zipWith (mulReal fmt) c tap

/-- Blender (R144): the left-associated sum of the products in lane order, each sum rounded. -/
def sumLanes (fmt : RealFmt) : List RealVal → RealVal
  | [] => RealVal.zero fmt false
  | p :: rest => rest.foldl (addReal fmt) p

/-- The value of one output sample from its fetched samples (R146 to R150): NEAREST the sample itself, SILENCE +0, the
others the weighted sum. -/
def sampleValue (hw : Hardware) (k : Kernel) (ph : Phase) (vs : List Int) : RealVal :=
  match k with
  | .nearest => sumLanes hw.fmt (vs.map (realOfInt hw.fmt))
  | .silence => RealVal.zero hw.fmt false
  | .linear => sumLanes hw.fmt (products hw.fmt (coefs hw .linear ph) (vs.map (realOfInt hw.fmt)))
  | .cubic => sumLanes hw.fmt (products hw.fmt (coefs hw .cubic ph) (vs.map (realOfInt hw.fmt)))
  | .sinc7 => sumLanes hw.fmt (products hw.fmt (coefs hw .sinc7 ph) (vs.map (realOfInt hw.fmt)))

/-- `VALUE(K, ph, i)` (R165): the value of the slot at the working state w, or the fault its fetches raise. -/
def State.slotValue (s : State) (l : Latch) (w : Work) : Except FaultInfo RealVal :=
  match s.fetchLanes l w (taps l.kernel) 0 with
  | .error f => .error f
  | .ok vs => .ok (sampleValue s.hw l.kernel w.ph vs)

end Sys2Proof.Machine
end

