-- ==== Sys2Proof/Machine/Flags.lean ====
section
/-! DEFINITION. The status flags: the words STATUS and VFLAGS read as, and how a render writes its flags (R22 to R24,
R32). -/

namespace Sys2Proof.Machine

/-- STATUS: BUSY in bit 0, SHORT in bit 1, the reserved bits 0 (R22, X9). -/
def State.statusWord (s : State) : Word := 0#30 ++ BitVec.ofBool s.short ++ BitVec.ofBool s.busy

/-- VFLAGS: HAS_LOOPED in bit 0, the reserved bits 0 (R24, X9). -/
def State.vflagsWord (s : State) : Word := 0#31 ++ BitVec.ofBool s.hasLooped

/-- A write of VFLAGS with any of bits 31..1 set is reserved (R24, R80). -/
def vflagsReserved (d : Word) : Bool := bitsOf d 1 31 != 0

/-- HAS_LOOPED as a host write of VFLAGS gives it: bit 0 (R24). -/
def vflagsLatch (d : Word) : Bool := d.getLsbD 0

/-- `SHORT <- (n < BLOCK_CAP)` (R22, R166). -/
def shortCount (n blockCap : Nat) : Bool := decide (n < blockCap)

/-- STATUS.BUSY is 1 from the CMD write on (R160), and stays 1 where the render faults (log 3). -/
def State.setBusy (s : State) : State := { s with busy := true }

/-- The flags and COUNT a render writes at its end (R166): HAS_LOOPED, COUNT, SHORT, BUSY. -/
def State.writeFlags (s : State) (looped : Bool) (n : Nat) : State :=
  { s with
    hasLooped := looped
    count := BitVec.ofNat 32 n
    short := shortCount n s.hw.blockCap
    busy := false }

end Sys2Proof.Machine
end

