-- ==== Sys2Proof/Machine/Render.lean ====
section
/-! DEFINITION. The render skeleton every RENDER command shares (43_render_kernels.md, R160 to R166). -/

namespace Sys2Proof.Machine

/-- All the wraps one slot takes, in one step, by the count of R167 (R163; 93 section 4, log 19). -/
def Work.wrapped (l : Latch) (w : Work) : Work :=
  { w with
    ph := subInt w.ph (wrapCount (idx w.ph) l.last l.span * l.span)
    looped := true }

/-- The boundary test of a slot (R162): past `last`, a looping render wraps (R163) and a non-looping one has no more
samples (none, R164); else the slot goes on as it is. -/
def Work.boundary (l : Latch) (w : Work) : Option Work :=
  if l.last < idx w.ph then
    if l.loop then some (w.wrapped l) else none
  else some w

/-- The slot loop (R162) with `left` slots still to be written before the block is full: boundary test first, then
block full, then one sample written and the phase advanced, which may raise PHASE_OVERFLOW after the write (R206; log 20). -/
def State.slotLoop (s : State) (l : Latch) : Nat → Work → LoopEnd
  | 0, w =>
    match w.boundary l with
    | none => .done w
    | some w => .done w
  | left + 1, w =>
    match w.boundary l with
    | none => .done w
    | some w =>
      match s.slotValue l w with
      | .error f => .raised f w
      | .ok y =>
        match incrPhase w.ph l.incr with
        | none => .raised (.phaseOverflow w.ph l.incr (w.n + 1)) (w.outWrite s.hw.fmt y)
        | some ph => s.slotLoop l left { w.outWrite s.hw.fmt y with ph := ph }

/-- What a render has written when it stops: the output memory, and the place among the free values. -/
def State.withOut (s : State) (w : Work) : State := { s with out := w.out, freeCtr := w.freeCtr }

/-- Render end (R166): the phase unbiased and written back, then the flags and COUNT. -/
def State.renderEnd (s : State) (k : Kernel) (w : Work) : State :=
  ((s.withOut w).withPhase (truePhase k w.ph)).writeFlags w.looped w.n

/-- The fault record a render's start raises for its markers (R201). -/
def State.markersFault (s : State) : FaultInfo := .markers s.start s.end_ s.loopstart s.loopend

/-- A render (R160 to R166): BUSY set, the markers checked, the step converted, the slot loop run, the results written
back; or the fault state, with what was written to OUT before it kept (R177). -/
def render (k : Kernel) (loop ext : Bool) (s : State) : Host.Outcome State Fault Refusal :=
  if s.markersOk then
    match setFloat s.stepBits with
    | none => raise (.stepDomain s.stepBits) s.setBusy
    | some incr =>
      match s.slotLoop (s.latch k loop ext incr) s.hw.blockCap (s.startWork k) with
      | .done w => .next (s.renderEnd k w)
      | .raised f w => raise f (s.setBusy.withOut w)
  else raise s.markersFault s.setBusy

/-- A render into which something from outside falls at the moment `after` slots have been written: `cut` says what comes
of it where the render has not ended before that, `ended` where it has. Faults of the render's start, and of the slots
before that moment, come first (R206). Logs 12 and 22. -/
def renderUntil (k : Kernel) (loop ext : Bool) (after : Nat) (s : State)
    (cut : Work → Host.Outcome State Fault Refusal) (ended : State → Host.Outcome State Fault Refusal) :
    Host.Outcome State Fault Refusal :=
  if s.markersOk then
    match setFloat s.stepBits with
    | none => raise (.stepDomain s.stepBits) s.setBusy
    | some incr =>
      match s.slotLoop (s.latch k loop ext incr) (min after s.hw.blockCap) (s.startWork k) with
      | .done w => if w.n = after then cut w else ended (s.renderEnd k w)
      | .raised f w => raise f (s.setBusy.withOut w)
  else raise s.markersFault s.setBusy

end Sys2Proof.Machine
end

