-- ==== Sys2Proof/Machine/RenderCommands.lean ====
section
/-! DEFINITION. The meanings of the five RENDER commands (R171 to R175). -/

namespace Sys2Proof.Machine

/-- RENDER.NEAREST (R171). -/
def execRenderNearest (loop ext : Bool) (s : State) : Host.Outcome State Fault Refusal :=
  render .nearest loop ext s

/-- RENDER.LINEAR (R172). -/
def execRenderLinear (loop ext : Bool) (s : State) : Host.Outcome State Fault Refusal :=
  render .linear loop ext s

/-- RENDER.CUBIC (R173). -/
def execRenderCubic (loop ext : Bool) (s : State) : Host.Outcome State Fault Refusal :=
  render .cubic loop ext s

/-- RENDER.SINC7 (R174). -/
def execRenderSinc7 (loop ext : Bool) (s : State) : Host.Outcome State Fault Refusal :=
  render .sinc7 loop ext s

/-- RENDER.SILENCE (R175): QUALITY is read by nothing; EXT is latched and read by nothing. -/
def execRenderSilence (_quality : BitVec 2) (loop ext : Bool) (s : State) : Host.Outcome State Fault Refusal :=
  render .silence loop ext s

end Sys2Proof.Machine
end

