-- ==== Sys2Proof/Machine/Dispatch.lean ====
section
/-! DEFINITION. The dispatcher: one arm per command (R75, R160). -/

namespace Sys2Proof.Machine

def exec (i : Instr) (s : State) : Host.Outcome State Fault Refusal :=
  match i with
  | .nop => Sys2Proof.Machine.execNop s
  | .renderNearest loop ext => Sys2Proof.Machine.execRenderNearest loop ext s
  | .renderLinear loop ext => Sys2Proof.Machine.execRenderLinear loop ext s
  | .renderCubic loop ext => Sys2Proof.Machine.execRenderCubic loop ext s
  | .renderSinc7 loop ext => Sys2Proof.Machine.execRenderSinc7 loop ext s
  | .renderSilence quality loop ext => Sys2Proof.Machine.execRenderSilence quality loop ext s

end Sys2Proof.Machine
end

