-- ==== Sys2Proof/Machine/HostPort.lean ====
section
/-! DEFINITION. The register port and the other ways the world outside reaches the core (R20 to R29, R50, R53, R58, R80,
R203, R220). -/

namespace Sys2Proof.Machine

/-- The byte offset of a register (R20). -/
def Reg.offset : Reg → Nat
  | .cmd => 0x00
  | .status => 0x04
  | .count => 0x08
  | .vflags => 0x0C
  | .phaseLo => 0x10
  | .phaseHi => 0x14
  | .stepLo => 0x18
  | .stepHi => 0x1C
  | .start => 0x20
  | .end_ => 0x24
  | .loopstart => 0x28
  | .loopend => 0x2C
  | .capacity => 0x30

/-- The thirteen registers (R20). -/
def Reg.all : List Reg :=
  [.cmd, .status, .count, .vflags, .phaseLo, .phaseHi, .stepLo, .stepHi, .start, .end_, .loopstart, .loopend, .capacity]

/-- The register at a byte offset; none at a reserved offset, one not a multiple of 4 or 0x34 and above (R50, R80). -/
def Reg.ofOffset (offset : Nat) : Option Reg := Reg.all.find? fun r => r.offset == offset

/-- What a register reads as (R21 to R28). CMD holds no state and reads as zero (R21). -/
def State.readReg (s : State) : Reg → Word
  | .cmd => 0
  | .status => s.statusWord
  | .count => s.count
  | .vflags => s.vflagsWord
  | .phaseLo => s.phaseLo
  | .phaseHi => s.phaseHi
  | .stepLo => s.stepLo
  | .stepHi => s.stepHi
  | .start => s.start
  | .end_ => s.end_
  | .loopstart => s.loopstart
  | .loopend => s.loopend
  | .capacity => BitVec.ofNat 32 s.hw.blockCap

/-- A command issued (R21, R70): a reserved word raises RESERVED_CMD and changes nothing (R78). -/
def issue (word : Word) (s : State) : Host.Outcome State Fault Refusal :=
  match decode word with
  | .error _ => raise (.reservedCmd word) s
  | .ok i => exec i s

/-- A host write of a register (R21 to R28): CMD issues a command; STATUS, COUNT and CAPACITY ignore the write (X7);
VFLAGS takes HAS_LOOPED, or raises RESERVED_REG where a reserved bit is set (X6); the others take the word. -/
def writeReg (r : Reg) (d : Word) (s : State) : Host.Outcome State Fault Refusal :=
  match r with
  | .cmd => issue d s
  | .status => .next s
  | .count => .next s
  | .vflags =>
    if vflagsReserved d then raise (.reservedReg (Reg.offset .vflags) (some d)) s
    else .next { s with hasLooped := vflagsLatch d }
  | .phaseLo => .next { s with phaseLo := d }
  | .phaseHi => .next { s with phaseHi := d }
  | .stepLo => .next { s with stepLo := d }
  | .stepHi => .next { s with stepHi := d }
  | .start => .next { s with start := d }
  | .end_ => .next { s with end_ := d }
  | .loopstart => .next { s with loopstart := d }
  | .loopend => .next { s with loopend := d }
  | .capacity => .next s

/-- `WR` by offset; a reserved offset raises RESERVED_REG before anything else of the access happens (R80, R206). -/
def hostWrite (offset : Nat) (d : Word) (s : State) : Host.Outcome State Fault Refusal :=
  match Reg.ofOffset offset with
  | none => raise (.reservedReg offset (some d)) s
  | some r => writeReg r d s

/-- `RD` by offset; a reserved offset raises RESERVED_REG; no register read has a side effect (R58, R80). -/
def hostRead (offset : Nat) (s : State) : Host.Outcome State Fault Refusal :=
  match Reg.ofOffset offset with
  | none => raise (.reservedReg offset none) s
  | some r => .next { s with answer := some (.reg (s.readReg r)) }

/-- `WAVE`: a write of one waveform entry between renders (R59, R81). -/
def hostWave (index : Nat) (hi : BitVec 16) (lo : Option (BitVec 8)) (s : State) :
    Host.Outcome State Fault Refusal :=
  if index < s.hw.waveDepth then .next (s.writeWave index hi lo) else .fault (.noSuchEntry index)

/-- A host read of one output slot (R53); a slot no render has written has no value, and the read
stops without a fault record, for S1 names no code (R62; log 8). -/
def hostReadOut (slot : Nat) (s : State) : Host.Outcome State Fault Refusal :=
  if slot < s.hw.blockCap then
    match s.out.read slot with
    | none => .fault (.unwrittenSlot slot)
    | some v => .next { s with answer := some (.out v) }
  else .fault (.noSuchSlot slot)

/-- A render during which another agent writes waveform entry `index` at the moment `after` slots have been written: if
the render has not ended before that, WAVE_RACE (R203, R206), and what the entry holds from then on is free; else the write
lands after it (R59). Log 12. -/
def renderRaced (k : Kernel) (loop ext : Bool) (after index : Nat) (hi : BitVec 16) (lo : Option (BitVec 8))
    (s : State) : Host.Outcome State Fault Refusal :=
  renderUntil k loop ext after s
    (fun w =>
      if index < s.hw.waveDepth then raise (.waveRace index) ((s.setBusy.withOut w).racedWave index)
      else .fault (.noSuchEntry index))
    (hostWave index hi lo)

/-- A CMD write while another agent writes the waveform memory (R203): a reserved word faults before anything else (R206);
with NOP the write is an ordinary one. -/
def hostIssueRaced (word : Word) (after index : Nat) (hi : BitVec 16) (lo : Option (BitVec 8)) (s : State) :
    Host.Outcome State Fault Refusal :=
  match decode word with
  | .error _ => raise (.reservedCmd word) s
  | .ok i =>
    match i.renderOf with
    | none => hostWave index hi lo s
    | some (k, loop, ext) => renderRaced k loop ext after index hi lo s

/-- A render into which a reset falls at the moment `after` slots have been written: abandoned, if it has not ended before
that (R220). Log 22. -/
def renderReset (k : Kernel) (loop ext : Bool) (after : Nat) (s : State) : Host.Outcome State Fault Refusal :=
  renderUntil k loop ext after s (fun w => .next (s.abandon w)) (fun t => .next t.resetCore)

/-- A CMD write with the reset input asserted while the render it starts is in progress, or after its command (R220). -/
def hostIssueReset (word : Word) (after : Nat) (s : State) : Host.Outcome State Fault Refusal :=
  match decode word with
  | .error _ => raise (.reservedCmd word) s
  | .ok i =>
    match i.renderOf with
    | none => .next s.resetCore
    | some (k, loop, ext) => renderReset k loop ext after s

/-- One operation of the world outside, in a state with no fault recorded. -/
def hostStep (op : HostOp) (s : State) : Host.Outcome State Fault Refusal :=
  match op with
  | .wr offset data => hostWrite offset data s
  | .rd offset => hostRead offset s
  | .wave index hi lo => hostWave index hi lo s
  | .rdOut slot => hostReadOut slot s
  | .issueRaced word after index hi lo => hostIssueRaced word after index hi lo s
  | .reset => .next s.resetCore
  | .issueReset word after => hostIssueReset word after s

/-- One operation in a faulted state: only reset has an effect; there is no other further step (R205, U8; log 2). -/
def faultedStep (f : FaultInfo) (s : State) : Host.Outcome State Fault Refusal :=
  match s.pending with
  | .reset :: rest => .next { s with pending := rest }.resetCore
  | _ => .fault (.recorded f s)

/-- The operation the host performs next, taken off its list; with none the core is idle and does nothing (R221). -/
def hostTurn (s : State) : Host.Outcome State Fault Refusal :=
  match s.pending with
  | [] => .next s
  | op :: rest => hostStep op { s with pending := rest }

end Sys2Proof.Machine
end

