-- ==== Sys2Proof/Machine/Step.lean ====
section
/-! DEFINITION. One step of the machine: the host's next operation performed whole (R29, R64, R230). -/

namespace Sys2Proof.Machine

/-- One step. The core fetches no instructions (R31): a command comes with the host's write to CMD (R21), the head of
`pending` (log 1). A faulted state has no step but reset (R205). -/
def step (s : State) : Host.Outcome State Fault Refusal :=
  match s.fault with
  | some f => faultedStep f s
  | none => hostTurn s

/-- `s` with the host about to write the command word `w` to CMD (R21, R70), before what it has pending; every command
is one 32-bit word, so the bits above `nbits` are zero (log 1). -/
def State.withFetchWord (s : State) (nbits w : Nat) : State :=
  { s with pending := .wr 0x00 (BitVec.ofNat 32 (w % 2 ^ nbits)) :: s.pending }

end Sys2Proof.Machine
end

