-- ==== Sys2Proof/Machine/Assembler.lean ====
section
/-! DEFINITION. The spec's assembler: the text of a command, and the pseudo-operations with their expansions into host
operations (R81, R82). -/

namespace Sys2Proof.Machine

/-- A suffix that is present exactly when its bit is 1 (R81). -/
def suffix (text : String) (present : Bool) : String := if present then text else ""

/-- The text of a command (R81): suffixes .LOOP and .EXT in that order; QUALITY of RENDER.SILENCE is not printed. -/
def commandText : Instr → String
  | .nop => "NOP"
  | .renderNearest loop ext => "RENDER.NEAREST" ++ suffix ".LOOP" loop ++ suffix ".EXT" ext
  | .renderLinear loop ext => "RENDER.LINEAR" ++ suffix ".LOOP" loop ++ suffix ".EXT" ext
  | .renderCubic loop ext => "RENDER.CUBIC" ++ suffix ".LOOP" loop ++ suffix ".EXT" ext
  | .renderSinc7 loop ext => "RENDER.SINC7" ++ suffix ".LOOP" loop ++ suffix ".EXT" ext
  | .renderSilence _ loop ext => "RENDER.SILENCE" ++ suffix ".LOOP" loop ++ suffix ".EXT" ext

/-- The commands of one choice of LOOP and EXT as the assembler writes them: QUALITY = 0 for RENDER.SILENCE (R81). -/
def commandsWith (loop ext : Bool) : List Instr :=
  [.renderNearest loop ext, .renderLinear loop ext, .renderCubic loop ext, .renderSinc7 loop ext, .renderSilence 0 loop ext]

/-- The commands the assembler can write: NOP and the 20 specializations (R75, R81). -/
def commands : List Instr :=
  .nop :: (commandsWith false false ++ commandsWith true false ++ commandsWith false true ++ commandsWith true true)

/-- The command word of a command's text; none where the text is no command (R81). -/
def assemble (text : String) : Option Word := (commands.find? fun i => commandText i == text).map encode

/-- The pseudo-operations (R82), and ISSUE and RETRIGGER among them. -/
inductive Pseudo where
  | issue (i : Instr)
  | setPhase (p : Phase)
  | setStep (bits : BitVec 64)
  | setRegion (start end_ loopstart loopend : Word)
  | retrigger
  | renderQ (quality : BitVec 2) (loop ext : Bool)
  | renderDefault (loop ext : Bool)
  deriving DecidableEq, Repr

/-- `ISSUE <command>` is `WR CMD, <word>` (R81). -/
def issueOp (i : Instr) : HostOp := .wr 0x00 (encode i)

/-- The host operations a pseudo-operation expands to (R82). RENDER.DEFAULT is the cubic kernel (R76). -/
def Pseudo.expand : Pseudo → List HostOp
  | .issue i => [issueOp i]
  | .setPhase p => [.wr 0x10 (p.extractLsb' 0 32), .wr 0x14 (p.extractLsb' 32 32)]
  | .setStep bits => [.wr 0x18 (bits.extractLsb' 0 32), .wr 0x1C (bits.extractLsb' 32 32)]
  | .setRegion start end_ loopstart loopend =>
    [.wr 0x20 start, .wr 0x24 end_, .wr 0x28 loopstart, .wr 0x2C loopend]
  | .retrigger => [.wr 0x0C 0]
  | .renderQ quality loop ext => [issueOp (renderWord quality false loop ext)]
  | .renderDefault loop ext => [issueOp (.renderCubic loop ext)]

end Sys2Proof.Machine
end

