-- ==== Sys2Proof/Machine/Walk.lean ====
section
/-! DEFINITION. The slot loop of R162 written pass by pass as the spec's pseudo-code has it, each wrap a pass of its own:
the clear form, beside `State.slotLoop`, which takes the wraps of one slot in one step (93 section 4). Claims hold the one
against the other. -/

namespace Sys2Proof.Machine

/-- One wrap (R163): SUB_INT by the span, the latch set. -/
def Work.wrapOnce (l : Latch) (w : Work) : Work := { w with ph := subInt w.ph l.span, looped := true }

/-- `Walk s l w e`: the passes of R162, from the working state w, come to the end e. -/
inductive Walk (s : State) (l : Latch) : Work → LoopEnd → Prop where
  /-- `i > last`, LOOP = 1: wrap, and evaluate i anew. -/
  | wrap {w : Work} {e : LoopEnd} : l.last < idx w.ph → l.loop = true → Walk s l (w.wrapOnce l) e → Walk s l w e
  /-- `i > last`, LOOP = 0: exit, the samples exhausted (R164). -/
  | exhausted {w : Work} : l.last < idx w.ph → l.loop = false → Walk s l w (.done w)
  /-- `n = BLOCK_CAP`: exit, the block full (R164). -/
  | full {w : Work} : idx w.ph ≤ l.last → w.n = s.hw.blockCap → Walk s l w (.done w)
  /-- A fetch of the slot raises its fault before anything is written (R206). -/
  | badFetch {w : Work} {f : FaultInfo} : idx w.ph ≤ l.last → w.n ≠ s.hw.blockCap →
      s.slotValue l w = .error f → Walk s l w (.raised f w)
  /-- INCR raises PHASE_OVERFLOW after the slot is written (R206). -/
  | overflow {w : Work} {y : RealVal} : idx w.ph ≤ l.last → w.n ≠ s.hw.blockCap → s.slotValue l w = .ok y →
      incrPhase w.ph l.incr = none →
      Walk s l w (.raised (.phaseOverflow w.ph l.incr (w.n + 1)) (w.outWrite s.hw.fmt y))
  /-- One sample is written, n and the phase advance, and the passes go on. -/
  | slot {w : Work} {y : RealVal} {ph : Phase} {e : LoopEnd} : idx w.ph ≤ l.last → w.n ≠ s.hw.blockCap →
      s.slotValue l w = .ok y → incrPhase w.ph l.incr = some ph →
      Walk s l { w.outWrite s.hw.fmt y with ph := ph } e → Walk s l w e

end Sys2Proof.Machine
end

