-- ==== Sys2Proof/Safety.lean ====
section
/-! DEFINITION. What a good run is, and the terms in which claims are stated. -/

namespace Sys2Proof.Machine

open Config

/-- The markers keep the caller's invariant (R27, R201), in plain inequalities. -/
def ValidMarkers (s : State) : Prop :=
  s.start.toNat ≤ s.loopstart.toNat ∧ s.loopstart.toNat < s.loopend.toNat ∧ s.loopend.toNat ≤ s.end_.toNat ∧
  s.end_.toNat < s.hw.waveDepth ∧ 3 ≤ s.loopend.toNat - s.loopstart.toNat

/-- The rational number a binary64 pattern stands for; none for a NaN or an infinity. Written from IEEE 754's own
definition, apart from the model's arithmetic. -/
def binary64Value (b : BitVec 64) : Option ℚ :=
  let sign : ℚ := if b.toNat / 2 ^ 63 = 1 then -1 else 1
  let field : Nat := b.toNat / 2 ^ 52 % 2 ^ 11
  let frac : ℚ := (b.toNat % 2 ^ 52 : Nat)
  if field = 2047 then none
  else if field = 0 then some (sign * frac * (2 : ℚ) ^ (-1074 : ℤ))
  else some (sign * (1 + frac / 2 ^ 52) * (2 : ℚ) ^ ((field : ℤ) - 1023))

/-- The rational number a finite value stands for. -/
def RealVal.value : RealVal → Option ℚ
  | .nan => none
  | .inf _ => none
  | .fin neg m e => some ((if neg then -1 else 1) * m * (2 : ℚ) ^ e)

/-- A finite value in the format's own form: `prec` significant bits, or the subnormals' exponent, and no exponent above
the largest. -/
def RealVal.canonical (fmt : RealFmt) : RealVal → Prop
  | .nan => True
  | .inf _ => True
  | .fin _ m e =>
    m < 2 ^ prec fmt ∧ minExp fmt ≤ e ∧ e ≤ maxExp fmt ∧ (e = minExp fmt ∨ 2 ^ (prec fmt - 1) ≤ m)

/-- The least magnitude that rounds to an infinity: half a unit above the largest finite value (IEEE 754). -/
def overflowBound (fmt : RealFmt) : ℚ := (2 ^ prec fmt - 1 / 2) * (2 : ℚ) ^ maxExp fmt

/-- y is the exact number x rounded to nearest, ties to even, in the format (R9, R145): y has the format's form; past
the overflow bound it is the infinity of x's sign; else it is finite, no finite value of the format is nearer to x, where
one is equally near y's significand is even, and y carries x's sign unless x is zero. -/
def RoundedTo (fmt : RealFmt) (x : ℚ) (y : RealVal) : Prop :=
  y.canonical fmt ∧
  if overflowBound fmt ≤ |x| then y = .inf (decide (x < 0))
  else ∃ neg m e, y = .fin neg m e ∧ (x ≠ 0 → neg = decide (x < 0)) ∧
    ∀ z : RealVal, z.canonical fmt → ∀ v v', y.value = some v → z.value = some v' →
      |x - v| ≤ |x - v'| ∧ (|x - v| = |x - v'| → v = v' ∨ m % 2 = 0)

/-- Room for the phase: even from the last unit step before `last + 1`, one increment stays below 2^64. A condition on
the registers alone under which no INCR of a render raises PHASE_OVERFLOW (R102). -/
def PhaseRoom (s : State) (loop : Bool) (incr : Phase) : Prop :=
  (s.regionLast loop + 1) * 2 ^ 32 + incr.toNat ≤ 2 ^ 64

/-- The state a render leaves when its passes end in `w`: R166 written out register by register. -/
def endState (s : State) (k : Kernel) (w : Work) : State :=
  let p : Phase := if k = .nearest ∨ k = .sinc7 then BitVec.ofNat 64 (w.ph.toNat + 2 ^ 64 - 2 ^ 31) else w.ph
  { s with
    phaseHi := BitVec.ofNat 32 (p.toNat / 2 ^ 32)
    phaseLo := BitVec.ofNat 32 p.toNat
    hasLooped := w.looped
    count := BitVec.ofNat 32 w.n
    short := decide (w.n < s.hw.blockCap)
    busy := false
    out := w.out
    freeCtr := w.freeCtr }

/-- The faulted state a render leaves when a rule raises f with `w` written (R177, R205): no register written back. -/
def faultState (s : State) (f : FaultInfo) (out : Memory RealBits) (freeCtr : Nat) : State :=
  { s with busy := true, fault := some f, out := out, freeCtr := freeCtr }

/-- What a render answers for the way its passes end. -/
def conclude (s : State) (k : Kernel) : LoopEnd → Host.Outcome State Fault Refusal
  | .done w => .next (endState s k w)
  | .raised f w => .fault (.recorded f (faultState s f w.out w.freeCtr))

/-- What a host with no fault in its run can rely on in every state: the parameters in their ranges, no render in
progress, COUNT within the block (R23), the memories in canonical form and within their bounds (R51, R53), every slot's
pattern within REAL_FMT's width (R53), and OUT[0..COUNT-1] readable (R233). -/
structure State.Inv (s : State) : Prop where
  hardware : s.hw.wellFormed = true
  idle : s.busy = false
  countInBlock : s.count.toNat ≤ s.hw.blockCap
  waveHiForm : s.waveHi.wf = true ∧ s.waveHi.below s.hw.waveDepth = true
  waveLoForm : s.waveLo.wf = true ∧ s.waveLo.below s.hw.waveDepth = true
  outForm : s.out.wf = true ∧ s.out.below s.hw.blockCap = true
  outWidth : ∀ slot v, s.out.read slot = some v → s.hw.fmt = .binary32 → v.toNat < 2 ^ 32
  outPrefix : ∀ slot, slot < s.count.toNat → (s.out.read slot).isSome = true

/-- A read of the register at `offset` gives v and does nothing else (R20, R58). -/
def ReadsAs (s : State) (offset : Nat) (v : Word) : Prop :=
  hostRead offset s = .next { s with answer := some (.reg v) }

/-- Every register of the bank reads as R39 says it does after reset; CAPACITY as BLOCK_CAP. -/
def RegistersAtReset (s : State) : Prop :=
  (∀ offset ∈ [0x04, 0x08, 0x0C, 0x10, 0x14, 0x18, 0x1C, 0x20, 0x24, 0x28, 0x2C], ReadsAs s offset 0) ∧
  ReadsAs s 0x30 (BitVec.ofNat 32 s.hw.blockCap)

/-- The host operations that restore a saved voice context: VFLAGS and PHASE, with the voice's STEP and markers (R225). -/
def restoreOps (s : State) : List HostOp :=
  [.wr 0x0C s.vflagsWord, .wr 0x10 s.phaseLo, .wr 0x14 s.phaseHi, .wr 0x18 s.stepLo, .wr 0x1C s.stepHi,
   .wr 0x20 s.start, .wr 0x24 s.end_, .wr 0x28 s.loopstart, .wr 0x2C s.loopend]

/-- Two states agree on everything a render reads: the parameters, the waveform, and the voice's registers (R73). -/
def SameContext (s t : State) : Prop :=
  s.hw = t.hw ∧ s.waveHi = t.waveHi ∧ s.waveLo = t.waveLo ∧ s.hasLooped = t.hasLooped ∧
  s.phaseLo = t.phaseLo ∧ s.phaseHi = t.phaseHi ∧ s.stepLo = t.stepLo ∧ s.stepHi = t.stepHi ∧
  s.start = t.start ∧ s.end_ = t.end_ ∧ s.loopstart = t.loopstart ∧ s.loopend = t.loopend

/-- The ROM meets the constraint of R142: single unit weights at zero true fraction. -/
def DegenerateRom (hw : Hardware) : Prop :=
  let one : RealVal := .fin false (2 ^ (prec hw.fmt - 1)) (1 - prec hw.fmt)
  let zero : RealVal := .fin false 0 (minExp hw.fmt)
  (coefBits hw.rom .linear 0).map (realOfBits hw.fmt) = [one, zero] ∧
  (coefBits hw.rom .cubic 0).map (realOfBits hw.fmt) = [zero, one, zero, zero] ∧
  (coefBits hw.rom .sinc7 128).map (realOfBits hw.fmt) = [zero, zero, zero, one, zero, zero, zero]

/-- Every coefficient is finite and of magnitude at most 2^100 (R145). -/
def ModerateRom (hw : Hardware) : Prop :=
  ∀ k r, ∀ c ∈ (coefBits hw.rom k r).map (realOfBits hw.fmt), ∃ v : ℚ, c.value = some v ∧ |v| ≤ 2 ^ 100

/-- The next operation starts a render: a write of a RENDER word to CMD (R21, R160), another agent's waveform write falling
with it or not (log 12). -/
def State.rendering (s : State) : Prop :=
  ∃ w i k, decode w = .ok i ∧ i.renderOf = some k ∧
    ((∃ rest, s.pending = .wr 0x00 w :: rest) ∨
      ∃ after index hi lo rest, s.pending = .issueRaced w after index hi lo :: rest)

/-- The next operation asserts the reset input (R220), between renders or in one (log 22). -/
def State.resetting (s : State) : Prop :=
  ∃ rest, s.pending = .reset :: rest ∨ ∃ w after, s.pending = .issueReset w after :: rest

/-- A host program has ended (R238): its last operation is done, no render is in progress, no fault is recorded. -/
def State.finished (s : State) : Prop := s.pending = [] ∧ s.busy = false ∧ s.fault = none

/-- The result of a run (R238): the register bank, and OUT[0..COUNT-1]. -/
def State.result (s : State) : List Word × List (Option RealBits) :=
  (Reg.all.map s.readReg, (List.range s.count.toNat).map s.out.read)

end Sys2Proof.Machine
end

