-- ==== Sys2Proof/Certificates/Slice0/Obligations.lean ====
section
/-! DEFINITION. The statements for the provers, from the spec's numbered rules. The spec's host acts on the core; here its
next operation is the head of `pending`, the model's own list (log 1). -/

open Sys2Proof Sys2Proof.Machine

/-! ## The command word -/

/-- R77: the example words of the spec decode to the commands it gives. -/
def Obligations.ExampleWordsDecodeToTheirCommands : Prop :=
  decode 0x00000111#32 = .ok (.renderLinear true false) ∧
  decode 0x00000321#32 = .ok (.renderCubic true true) ∧
  decode 0x00000001#32 = .ok (.renderNearest false false) ∧
  decode 0x00000231#32 = .ok (.renderSinc7 false true) ∧
  decode 0x00000141#32 = .ok (.renderSilence 0 true false) ∧
  decode 0x00000161#32 = .ok (.renderSilence 2 true false)

/-- R71, R72: every well-formed command, with every value of LOOP, EXT and the don't-care QUALITY, survives encoding. -/
def Obligations.DecodingAnEncodedCommandGivesItBack : Prop :=
  ∀ i : Instr, i.wellFormed = true → decode (encode i) = .ok i

/-- R71, R72: a word that decodes is the encoding of the term it decodes to. The term keeps the don't-care QUALITY of
RENDER.SILENCE, the model's choice (log 21): the four words that differ only there are one command of R75 and four terms. -/
def Obligations.EncodingADecodedWordGivesItBack : Prop :=
  ∀ (w : Word) (i : Instr), decode w = .ok i → encode i = w

/-- R74: the opcode map, row by row: a word matches a row (its bits under the row's mask are the row's) exactly where it
decodes to the row's command, LOOP in bit 8 and EXT in bit 9, QUALITY of RENDER.SILENCE in bits 5..4; and a word matches at
most one row. -/
def Obligations.OpcodeMapRowsAreTheCommands : Prop :=
  ∀ w : Word,
    (w &&& 0xFFFFFFFF#32 = 0x00000000#32 ↔ decode w = .ok .nop) ∧
    (w &&& 0xFFFFFCFF#32 = 0x00000001#32 ↔ decode w = .ok (.renderNearest (w.getLsbD 8) (w.getLsbD 9))) ∧
    (w &&& 0xFFFFFCFF#32 = 0x00000011#32 ↔ decode w = .ok (.renderLinear (w.getLsbD 8) (w.getLsbD 9))) ∧
    (w &&& 0xFFFFFCFF#32 = 0x00000021#32 ↔ decode w = .ok (.renderCubic (w.getLsbD 8) (w.getLsbD 9))) ∧
    (w &&& 0xFFFFFCFF#32 = 0x00000031#32 ↔ decode w = .ok (.renderSinc7 (w.getLsbD 8) (w.getLsbD 9))) ∧
    (w &&& 0xFFFFFCCF#32 = 0x00000041#32 ↔
      decode w = .ok (.renderSilence (w.extractLsb' 4 2) (w.getLsbD 8) (w.getLsbD 9))) ∧
    ∀ r₁ ∈ opcodeTable, ∀ r₂ ∈ opcodeTable, r₁.matches w = true → r₂.matches w = true → r₁ = r₂

/-- R78: a write to CMD of a word with OP in 0x2..0xF, of a RENDER word with bit 7 or any of bits 31..10 set, or of a word
with OP = 0x0 that is not zero, faults with RESERVED_CMD and the word; no register and no memory changes. -/
def Obligations.ReservedCommandWordFaults : Prop :=
  ∀ (s : State) (w : Word) (rest : List HostOp), s.fault = none → s.pending = .wr 0x00 w :: rest →
    (2 ≤ w.toNat % 16 ∨ (w.toNat % 16 = 1 ∧ (w.toNat / 2 ^ 7 % 2 = 1 ∨ w.toNat / 2 ^ 10 ≠ 0)) ∨
      (w.toNat % 16 = 0 ∧ w ≠ 0)) →
    ∃ left, step s = .fault (.recorded (.reservedCmd w) left) ∧
      left = { s with pending := left.pending, fault := some (.reservedCmd w) }

/-- R81: the texts of the commands, `NOP` and `RENDER.<K>[.LOOP][.EXT]`, each suffix present exactly when its bit is 1 and in
that order, written out; each assembles to its word, with QUALITY = 0 for RENDER.SILENCE, and is what any word of the command
is printed as, without the QUALITY bits of RENDER.SILENCE. -/
def Obligations.CommandTextAssemblesToItsWord : Prop :=
  assemble "NOP" = some 0x00000000#32 ∧ commandText .nop = "NOP" ∧
  ∀ (loop ext : Bool) (quality : BitVec 2),
    let suffixes := (if loop then ".LOOP" else "") ++ (if ext then ".EXT" else "")
    let bits : Word := (if loop then 0x100#32 else 0) + (if ext then 0x200#32 else 0)
    (assemble ("RENDER.NEAREST" ++ suffixes) = some (0x01#32 + bits) ∧
      assemble ("RENDER.LINEAR" ++ suffixes) = some (0x11#32 + bits) ∧
      assemble ("RENDER.CUBIC" ++ suffixes) = some (0x21#32 + bits) ∧
      assemble ("RENDER.SINC7" ++ suffixes) = some (0x31#32 + bits) ∧
      assemble ("RENDER.SILENCE" ++ suffixes) = some (0x41#32 + bits)) ∧
    commandText (.renderNearest loop ext) = "RENDER.NEAREST" ++ suffixes ∧
    commandText (.renderLinear loop ext) = "RENDER.LINEAR" ++ suffixes ∧
    commandText (.renderCubic loop ext) = "RENDER.CUBIC" ++ suffixes ∧
    commandText (.renderSinc7 loop ext) = "RENDER.SINC7" ++ suffixes ∧
    commandText (.renderSilence quality loop ext) = "RENDER.SILENCE" ++ suffixes

/-! ## A step -/

/-- R70: "A command takes effect when the word is written": where the host's next operation writes CMD and the word
decodes to i, a step is exec of i with that operation taken off the list; and so for `withFetchWord` (log 1). -/
def Obligations.StepRunsTheDecodedCommand : Prop :=
  (∀ (s : State) (w : Word) (i : Instr) (rest : List HostOp), s.fault = none → s.pending = .wr 0x00 w :: rest →
    decode w = .ok i → step s = exec i { s with pending := rest }) ∧
  ∀ (s : State) (w : Nat) (i : Instr), s.fault = none → decodeTableWord 32 w = some i →
    step (s.withFetchWord 32 w) = exec i s

/-- R221: with no host operation pending the core is idle and does nothing (log 1). -/
def Obligations.IdleCoreDoesNothing : Prop :=
  ∀ s : State, s.fault = none → s.pending = [] → step s = .next s

/-- R205, U8: a state with a fault recorded has no further step but reset: any other step stops with the recorded fault
and the state as it is; reset clears the record (log 2). -/
def Obligations.FaultedStateHasNoStepButReset : Prop :=
  ∀ (s : State) (f : FaultInfo), s.fault = some f →
    ((∀ rest, s.pending ≠ .reset :: rest) → step s = .fault (.recorded f s)) ∧
    ∀ rest, s.pending = .reset :: rest → ∃ t, step s = .next t ∧ t.fault = none

/-- R39: after reset, in whatever state it finds the core (a faulted one too, log 2), every register reads as R39's table says
and CAPACITY as BLOCK_CAP, no output slot has a value (the model's reading of R62 and S1, log 8), the fault record is clear,
and the waveform memory, the ROM and the other parameters are as they were; what the host still has to do is kept (the
model's choice, log 18); and `State.reset` is such a state. -/
def Obligations.ResetGivesTheTableOfResetValues : Prop :=
  (RegistersAtReset State.reset ∧ (∀ slot, State.reset.out.read slot = none) ∧ State.reset.fault = none) ∧
  ∀ (s : State) (rest : List HostOp), s.pending = .reset :: rest →
    ∃ t, step s = .next t ∧ t.pending = rest ∧ RegistersAtReset t ∧ (∀ slot, t.out.read slot = none) ∧
      t.fault = none ∧ t.waveHi = s.waveHi ∧ t.waveLo = s.waveLo ∧ t.hw = s.hw

/-! ## The register port -/

/-- R21 to R28, R58: what a read of each register gives, and that it does nothing else: CMD zero, STATUS with BUSY in bit 0
and SHORT in bit 1, VFLAGS with HAS_LOOPED in bit 0, CAPACITY the constant BLOCK_CAP, the others their words. A step with a
read of any of these offsets pending answers that value and changes nothing else (the answer's place is the model's, log
11). -/
def Obligations.RegisterReadsGiveTheirFields : Prop :=
  ∀ s : State,
    ReadsAs s 0x00 0 ∧
    ReadsAs s 0x04 (BitVec.ofNat 32 (s.busy.toNat + 2 * s.short.toNat)) ∧
    ReadsAs s 0x08 s.count ∧
    ReadsAs s 0x0C (BitVec.ofNat 32 s.hasLooped.toNat) ∧
    ReadsAs s 0x10 s.phaseLo ∧ ReadsAs s 0x14 s.phaseHi ∧ ReadsAs s 0x18 s.stepLo ∧ ReadsAs s 0x1C s.stepHi ∧
    ReadsAs s 0x20 s.start ∧ ReadsAs s 0x24 s.end_ ∧ ReadsAs s 0x28 s.loopstart ∧ ReadsAs s 0x2C s.loopend ∧
    ReadsAs s 0x30 (BitVec.ofNat 32 s.hw.blockCap) ∧
    ∀ (offset : Nat) (v : Word) (rest : List HostOp), s.fault = none → ReadsAs s offset v →
      step { s with pending := .rd offset :: rest } = .next { s with pending := rest, answer := some (.reg v) }

/-- R25 to R27, R29: a write of PHASE, STEP or a marker goes on, and after it that register reads as the word written and
every other register as before; the memories are not touched. -/
def Obligations.RegisterWriteIsReadBack : Prop :=
  ∀ (s : State) (d : Word) (rest : List HostOp) (offset : Nat), s.fault = none →
    offset ∈ [0x10, 0x14, 0x18, 0x1C, 0x20, 0x24, 0x28, 0x2C] →
    ∃ t, step { s with pending := .wr offset d :: rest } = .next t ∧ t.pending = rest ∧ t.fault = none ∧
      ReadsAs t offset d ∧
      (∀ other v, other ≠ offset → ReadsAs s other v → ReadsAs t other v) ∧
      t.out = s.out ∧ t.waveHi = s.waveHi ∧ t.waveLo = s.waveLo ∧ t.hw = s.hw

/-- R80: an access at an offset not a multiple of 4 or at 0x34 and above faults with RESERVED_REG, its offset and a write's
data; so does a write of VFLAGS with any of bits 31..1 set; nothing changes but the record. Writes of STATUS, COUNT and
CAPACITY are ignored. -/
def Obligations.ReservedAccessesFaultAndReadOnlyWritesAreIgnored : Prop :=
  ∀ (s : State) (d : Word) (rest : List HostOp) (offset : Nat), s.fault = none →
    ((offset % 4 ≠ 0 ∨ 0x34 ≤ offset) →
      (∃ left, step { s with pending := .wr offset d :: rest } =
          .fault (.recorded (.reservedReg offset (some d)) left) ∧
        left = { s with pending := left.pending, fault := some (.reservedReg offset (some d)) }) ∧
      ∃ left, step { s with pending := .rd offset :: rest } = .fault (.recorded (.reservedReg offset none) left) ∧
        left = { s with pending := left.pending, fault := some (.reservedReg offset none) }) ∧
    (d.toNat / 2 ≠ 0 →
      ∃ left, step { s with pending := .wr 0x0C d :: rest } =
          .fault (.recorded (.reservedReg 0x0C (some d)) left) ∧
        left = { s with pending := left.pending, fault := some (.reservedReg 0x0C (some d)) }) ∧
    (offset ∈ [0x04, 0x08, 0x30] → step { s with pending := .wr offset d :: rest } = .next { s with pending := rest })

/-- R24: the host may set the latch and clear it; nothing else changes. -/
def Obligations.HostWritesTheHasLoopedLatch : Prop :=
  ∀ (s : State) (d : Word) (rest : List HostOp), s.fault = none → d.toNat < 2 →
    step { s with pending := .wr 0x0C d :: rest } =
      .next { s with pending := rest, hasLooped := decide (d.toNat = 1) }

/-- R82: the pseudo-operations' expansions, and what they leave when the host performs them: SETPHASE the phase, SETSTEP the
step, SETREGION the four markers, RETRIGGER the latch clear, each with nothing else changed; RENDER.Q and RENDER.DEFAULT
expand to one write of CMD, of the kernel's word and of the cubic kernel's. -/
def Obligations.PseudoOperationsSetTheirRegisters : Prop :=
  (∀ (p : Phase) (bits : BitVec 64) (a b c d : Word),
    (Pseudo.setPhase p).expand = [.wr 0x10 (BitVec.ofNat 32 p.toNat), .wr 0x14 (BitVec.ofNat 32 (p.toNat / 2 ^ 32))] ∧
    (Pseudo.setStep bits).expand =
      [.wr 0x18 (BitVec.ofNat 32 bits.toNat), .wr 0x1C (BitVec.ofNat 32 (bits.toNat / 2 ^ 32))] ∧
    (Pseudo.setRegion a b c d).expand = [.wr 0x20 a, .wr 0x24 b, .wr 0x28 c, .wr 0x2C d] ∧
    Pseudo.retrigger.expand = [.wr 0x0C 0]) ∧
  (∀ (s : State) (rest : List HostOp) (p : Phase) (bits : BitVec 64) (a b c d : Word), s.fault = none →
    (∃ t, Host.Core.run core 2 { s with pending := (Pseudo.setPhase p).expand ++ rest } = .next t ∧ t.phase = p ∧
      t = { s with pending := rest, phaseLo := t.phaseLo, phaseHi := t.phaseHi }) ∧
    (∃ t, Host.Core.run core 2 { s with pending := (Pseudo.setStep bits).expand ++ rest } = .next t ∧
      t.stepBits = bits ∧ t = { s with pending := rest, stepLo := t.stepLo, stepHi := t.stepHi }) ∧
    Host.Core.run core 4 { s with pending := (Pseudo.setRegion a b c d).expand ++ rest } =
      .next { s with pending := rest, start := a, end_ := b, loopstart := c, loopend := d } ∧
    Host.Core.run core 1 { s with pending := Pseudo.retrigger.expand ++ rest } =
      .next { s with pending := rest, hasLooped := false }) ∧
  ∀ loop ext : Bool,
    (Pseudo.renderQ 0 loop ext).expand = [.wr 0x00 (encode (.renderNearest loop ext))] ∧
    (Pseudo.renderQ 1 loop ext).expand = [.wr 0x00 (encode (.renderLinear loop ext))] ∧
    (Pseudo.renderQ 2 loop ext).expand = [.wr 0x00 (encode (.renderCubic loop ext))] ∧
    (Pseudo.renderQ 3 loop ext).expand = [.wr 0x00 (encode (.renderSinc7 loop ext))] ∧
    (Pseudo.renderDefault loop ext).expand = [.wr 0x00 (encode (.renderCubic loop ext))]

/-! ## The memories as the host reaches them -/

/-- R59, R69: the host's write of a waveform entry that exists goes on, and every later sample of that entry is made of what
was written (an omitted low part keeps the old one, log 17); every other entry, and all else, is as before. A write of an
entry that does not exist stops under the model's own name (log 9). -/
def Obligations.WaveformWriteIsSeenByLaterFetches : Prop :=
  ∀ (s : State) (index : Nat) (hi : BitVec 16) (lo : Option (BitVec 8)) (rest : List HostOp), s.fault = none →
    (index < s.hw.waveDepth →
      ∃ t, step { s with pending := .wave index hi lo :: rest } = .next t ∧
        t.sampleAt false index = hi.toInt ∧
        t.sampleAt true index = hi.toInt * 2 ^ 8 + ((lo.getD (s.waveLoAt index)).toNat : Int) ∧
        (∀ ext other, other ≠ index → t.sampleAt ext other = s.sampleAt ext other) ∧
        t = { s with pending := rest, waveHi := t.waveHi, waveLo := t.waveLo }) ∧
    (s.hw.waveDepth ≤ index →
      step { s with pending := .wave index hi lo :: rest } = .fault (.noSuchEntry index))

/-- R53, R62: a read of an output slot gives the value last written there and changes nothing else; a slot no render has
written has no value, and the read faults; there is no slot at BLOCK_CAP or above (log 9). -/
def Obligations.OutputSlotsReadAsWrittenOrFault : Prop :=
  ∀ (s : State) (slot : Nat) (rest : List HostOp), s.fault = none →
    (∀ v, slot < s.hw.blockCap → s.out.read slot = some v →
      step { s with pending := .rdOut slot :: rest } =
        .next { s with pending := rest, answer := some (.out v) }) ∧
    (slot < s.hw.blockCap → s.out.read slot = none →
      step { s with pending := .rdOut slot :: rest } = .fault (.unwrittenSlot slot)) ∧
    (s.hw.blockCap ≤ slot → step { s with pending := .rdOut slot :: rest } = .fault (.noSuchSlot slot))

/-! ## The phase accumulator -/

/-- R101: SET_FLOAT. With v the number the STEP pattern stands for in IEEE 754: a NaN, an infinity, v < 0 and v >= 2^32 are
outside the domain, and a render raises STEP_DOMAIN there; else the increment is floor(v * 2^32), its index floor(v) and its
fraction the truncated rest; negative zero gives 0, and the binary64 nearest to 0.1 gives 0x1999_9999. -/
def Obligations.StepConversionTruncatesTheBinary64Value : Prop :=
  (∀ b : BitVec 64,
    match binary64Value b with
    | none => setFloat b = none
    | some v =>
      if v < 0 ∨ (2 : ℚ) ^ 32 ≤ v then setFloat b = none
      else ∃ p, setFloat b = some p ∧ (p.toNat : ℤ) = ⌊v * 2 ^ 32⌋ ∧ (idx p : ℤ) = ⌊v⌋ ∧
        (frac p : ℤ) = ⌊(v - ⌊v⌋) * 2 ^ 32⌋) ∧
  (∀ (i : Instr) (k : Kernel) (loop ext : Bool) (s : State), i.renderOf = some (k, loop, ext) → ValidMarkers s →
    setFloat (s.stepHi ++ s.stepLo) = none →
    ∃ left, exec i s = .fault (.recorded (.stepDomain (s.stepHi ++ s.stepLo)) left)) ∧
  setFloat 0x8000000000000000#64 = some 0#64 ∧ setFloat 0x3FB999999999999A#64 = some 0x0000000019999999#64

/-- R102, R103, R106, R108: INCR gives the sum, or nothing (PHASE_OVERFLOW) where the sum reaches 2^64; SUB_INT of a loop's
span from a phase at LOOPEND or above is exact, keeps the fraction and leaves the index at LOOPSTART or above; INDEX_TRUNC is
bits 63..32 and FRAC_ROW bits 31..24. -/
def Obligations.PhaseOperationsFollowTheirRules : Prop :=
  ∀ p d : Phase,
    (2 ^ 64 ≤ p.toNat + d.toNat → incrPhase p d = none) ∧
    (p.toNat + d.toNat < 2 ^ 64 → ∃ q, incrPhase p d = some q ∧ q.toNat = p.toNat + d.toNat) ∧
    (∀ loopstart loopend : Nat, loopstart < loopend → loopend ≤ idx p →
      (subInt p (loopend - loopstart)).toNat = p.toNat - (loopend - loopstart) * 2 ^ 32 ∧
      frac (subInt p (loopend - loopstart)) = frac p ∧ loopstart ≤ idx (subInt p (loopend - loopstart))) ∧
    idx p = (p.extractLsb' 32 32).toNat ∧ row p = (p.extractLsb' 24 8).toNat

/-- R104, R107 (and R105, R109): INCR_HALF and DECR_HALF wrap modulo 2^64 and undo each other; NEAREST and SINC7, and no
other kernel, take them at a render's start and end; INDEX_ROUND is the nearest index, a tie going up; below 2^64 - HALF the
biased phase's index is the rounded index, and at a true fraction of 0 the biased phase's row is 128. -/
def Obligations.HalfStepBiasIsUndoneAndRounds : Prop :=
  ∀ p : Phase,
    (incrHalf p).toNat = (p.toNat + 2 ^ 31) % 2 ^ 64 ∧
    (decrHalf p).toNat = (p.toNat + 2 ^ 64 - 2 ^ 31) % 2 ^ 64 ∧
    decrHalf (incrHalf p) = p ∧ incrHalf (decrHalf p) = p ∧
    (∀ k : Kernel, workingPhase k p = (if k = .nearest ∨ k = .sinc7 then incrHalf p else p) ∧
      truePhase k p = (if k = .nearest ∨ k = .sinc7 then decrHalf p else p)) ∧
    roundIdx p * 2 ^ 32 ≤ p.toNat + 2 ^ 31 ∧ p.toNat + 2 ^ 31 < (roundIdx p + 1) * 2 ^ 32 ∧
    (p.toNat < 2 ^ 64 - 2 ^ 31 → idx (incrHalf p) = roundIdx p) ∧
    (frac p = 0 → row (incrHalf p) = 128)

/-- R163, R167: the wraps of one slot, which the model takes in one step, are single wraps: with i past `last`, the slot's
working state after them is that after c single wraps, c = ceil((i - last) / span); each of them is taken past `last` and
takes the span off the phase exactly, and the last one leaves the index at `last` or below. -/
def Obligations.WrapsInOneStepAreSingleWraps : Prop :=
  ∀ (s : State) (k : Kernel) (ext : Bool) (incr : Phase) (w : Work), ValidMarkers s →
    (s.latch k true ext incr).last < idx w.ph →
    ∃ c : Nat, w.wrapped (s.latch k true ext incr) = (Work.wrapOnce (s.latch k true ext incr))^[c] w ∧
      (c - 1) * (s.loopend.toNat - s.loopstart.toNat) < idx w.ph - (s.loopend.toNat - 1) ∧
      idx w.ph - (s.loopend.toNat - 1) ≤ c * (s.loopend.toNat - s.loopstart.toNat) ∧
      (∀ j < c, s.loopend.toNat - 1 < idx ((Work.wrapOnce (s.latch k true ext incr))^[j] w).ph ∧
        ((Work.wrapOnce (s.latch k true ext incr))^[j + 1] w).ph.toNat +
            (s.loopend.toNat - s.loopstart.toNat) * 2 ^ 32 =
          ((Work.wrapOnce (s.latch k true ext incr))^[j] w).ph.toNat) ∧
      idx (w.wrapped (s.latch k true ext incr)).ph ≤ s.loopend.toNat - 1

/-! ## Tap fetch -/

/-- R120, R121: FETCH at an index inside the waveform gives the base part as a two's-complement number, and at extended
precision 2^8 times it plus the low byte; outside it gives nothing, and a slot whose lane fetches there raises FETCH_RANGE
with the index, the lane and n. -/
def Obligations.FetchCombinesTheStoredParts : Prop :=
  ∀ (s : State) (i : Int),
    (0 ≤ i → i < s.hw.waveDepth →
      let hi := (s.waveHiAt i.toNat).toNat
      let base : Int := hi - (if 2 ^ 15 ≤ hi then 2 ^ 16 else 0)
      s.fetch false i = some base ∧ s.fetch true i = some (base * 2 ^ 8 + (s.waveLoAt i.toNat).toNat)) ∧
    (¬ (0 ≤ i ∧ i < s.hw.waveDepth) → ∀ ext, s.fetch ext i = none) ∧
    ∀ (l : Latch) (w : Work) (lane count : Nat), s.laneIndex l w.looped (idx w.ph) lane = i →
      s.fetch l.ext i = none → s.fetchLanes l w (count + 1) lane = .error (.fetchRange i lane w.n)

/-- R122: every sample has magnitude at most 2^23 and converts exactly; at extended precision a sample is 2^8 times the
standard one plus the low byte. -/
def Obligations.TapConversionIsExact : Prop :=
  (∀ (fmt : RealFmt) (v : Int), |v| ≤ 2 ^ 23 → (realOfInt fmt v).value = some (v : ℚ)) ∧
  ∀ (s : State) (ext : Bool) (i : Nat), |s.sampleAt ext i| ≤ 2 ^ 23 ∧
    s.sampleAt true i = s.sampleAt false i * 2 ^ 8 + (s.waveLoAt i).toNat

/-- R127, R128, R129, R134: which sample each tap index reads. Before the first wrap every index below START reads START;
after it the index d below LOOPSTART reads the one d below LOOPEND; a looping render's index d above LOOPEND reads the one d
above LOOPSTART, a non-looping one's indices past END read END; an index of the region reads itself. -/
def Obligations.VirtualTapsReadTheSubstitutedSamples : Prop :=
  ∀ s : State, ValidMarkers s →
    (∀ (loop : Bool) (j : Int), j < s.start.toNat → s.tapIndex loop false j = s.start.toNat) ∧
    (∀ (loop : Bool) (d : Nat), 1 ≤ d →
      s.tapIndex loop true ((s.loopstart.toNat : Int) - d) = (s.loopend.toNat : Int) - d) ∧
    (∀ (looped : Bool) (d : Nat),
      s.tapIndex true looped ((s.loopend.toNat : Int) + d) = (s.loopstart.toNat : Int) + d) ∧
    (∀ (looped : Bool) (j : Int), s.end_.toNat < j → s.tapIndex false looped j = s.end_.toNat) ∧
    ∀ (loop looped : Bool) (j : Int), s.regionStart looped ≤ j → j ≤ s.regionLast loop →
      s.tapIndex loop looped j = j

/-- R131: with the working index i in the region and L = last, exactly the lanes of R131's table are virtual (read another
sample than their own). -/
def Obligations.RegionsHaveTheVirtualLanesOfTheTable : Prop :=
  ∀ (s : State) (loop ext looped : Bool) (incr : Phase) (i : Nat), ValidMarkers s →
    s.regionStart looped ≤ i → i ≤ s.regionLast loop →
    let rs := s.regionStart looped
    let last := s.regionLast loop
    let virt : Kernel → Nat → Prop := fun k lane =>
      s.laneIndex (s.latch k loop ext incr) looped i lane ≠ (i : Int) + lane - lookback k
    (¬ virt .nearest 0) ∧
    (¬ virt .linear 0) ∧ (virt .linear 1 ↔ i = last) ∧
    (virt .cubic 0 ↔ i = rs) ∧ (¬ virt .cubic 1) ∧ (virt .cubic 2 ↔ i = last) ∧
    (virt .cubic 3 ↔ i = last ∨ i + 1 = last) ∧
    (virt .sinc7 0 ↔ i = rs ∨ i = rs + 1 ∨ i = rs + 2) ∧ (virt .sinc7 1 ↔ i = rs ∨ i = rs + 1) ∧
    (virt .sinc7 2 ↔ i = rs) ∧ (¬ virt .sinc7 3) ∧ (virt .sinc7 4 ↔ i = last) ∧
    (virt .sinc7 5 ↔ i = last ∨ i + 1 = last) ∧ (virt .sinc7 6 ↔ i = last ∨ i + 1 = last ∨ i + 2 = last)

/-- R123: under the markers' invariant no lane of a slot at an index up to `last` leaves the waveform, whatever the phase
and the latch; so no render raises FETCH_RANGE. -/
def Obligations.NoFetchLeavesTheWaveform : Prop :=
  (∀ (s : State) (k : Kernel) (loop ext looped : Bool) (incr : Phase) (i lane : Nat), ValidMarkers s →
    i ≤ s.regionLast loop → lane < taps k →
    0 ≤ s.laneIndex (s.latch k loop ext incr) looped i lane ∧
      s.laneIndex (s.latch k loop ext incr) looped i lane < s.hw.waveDepth) ∧
  ∀ (i : Instr) (s left : State) (index : Int) (lane n : Nat),
    exec i s ≠ .fault (.recorded (.fetchRange index lane n) left)

/-! ## Real arithmetic and the sample values -/

/-- R9: `*r`, `+r` and `real` are the exact product, sum and integer rounded once to nearest, ties to even, with IEEE 754's
signs of zero, infinities and NaNs; sums associate to the left. -/
def Obligations.RealArithmeticRoundsToNearestEven : Prop :=
  ∀ fmt : RealFmt,
    (∀ (a b : RealVal) (x y : ℚ), a.value = some x → b.value = some y →
      RoundedTo fmt (x * y) (mulReal fmt a b) ∧ RoundedTo fmt (x + y) (addReal fmt a b)) ∧
    (∀ i : Int, RoundedTo fmt i (realOfInt fmt i)) ∧
    (∀ (a b : Bool) (m n : Nat) (e f : Int),
      (m = 0 ∨ n = 0 → mulReal fmt (.fin a m e) (.fin b n f) = RealVal.zero fmt (a != b)) ∧
      (∀ x y : ℚ, RealVal.value (.fin a m e) = some x → RealVal.value (.fin b n f) = some y → x + y = 0 →
        addReal fmt (.fin a m e) (.fin b n f) = RealVal.zero fmt (a && b)) ∧
      mulReal fmt (.inf a) (.inf b) = .inf (a != b) ∧
      mulReal fmt (.inf a) (.fin b n f) = (if n = 0 then .nan else .inf (a != b)) ∧
      mulReal fmt (.fin b n f) (.inf a) = (if n = 0 then .nan else .inf (a != b)) ∧
      addReal fmt (.inf a) (.inf b) = (if a = b then .inf a else .nan) ∧
      addReal fmt (.inf a) (.fin b n f) = .inf a ∧ addReal fmt (.fin b n f) (.inf a) = .inf a) ∧
    (∀ v : RealVal, mulReal fmt .nan v = .nan ∧ mulReal fmt v .nan = .nan ∧ addReal fmt .nan v = .nan ∧
      addReal fmt v .nan = .nan) ∧
    ∀ p q r : RealVal, sumLanes fmt [p, q, r] = addReal fmt (addReal fmt p q) r

/-- R53, R145, S5: the pattern written for a value in the format's form reads back as that value, a NaN as a NaN; and every
NaN pattern of the format can be the one a NaN is written as. -/
def Obligations.RealPatternsReadBack : Prop :=
  (∀ (fmt : RealFmt) (free : BitVec 64) (y : RealVal), y.canonical fmt →
    realOfBits fmt (bitsOfReal fmt free y) = y) ∧
  ∀ (fmt : RealFmt) (v : RealBits), realOfBits fmt v = .nan → (fmt = .binary32 → v.toNat < 2 ^ 32) →
    ∃ free, nanBits fmt free = v

/-- R146 to R150: the value of a slot from the samples its taps fetch: NEAREST the sample itself; LINEAR, CUBIC and SINC7 the
left-associated sum of the products with the coefficients of the row the fraction selects; SILENCE a value whose pattern is
all zeros. -/
def Obligations.SlotValuesOfTheFiveKernels : Prop :=
  ∀ (s : State) (l : Latch) (w : Work) (r : Fin 256), r.val = row w.ph →
    let real := realOfInt s.hw.fmt
    let mul := mulReal s.hw.fmt
    let add := addReal s.hw.fmt
    let tap : Int → Option Int := fun offset => s.fetch l.ext (s.tapIndex l.loop w.looped (idx w.ph + offset))
    let lin : Fin 2 → RealVal := fun k => realOfBits s.hw.fmt ((s.hw.rom.lin.get r).get k)
    let cub : Fin 4 → RealVal := fun k => realOfBits s.hw.fmt ((s.hw.rom.cub.get r).get k)
    let sinc : Fin 7 → RealVal := fun k => realOfBits s.hw.fmt ((s.hw.rom.sinc.get r).get k)
    (l.kernel = .nearest → ∀ v, s.fetch l.ext (idx w.ph) = some v → s.slotValue l w = .ok (real v)) ∧
    (l.kernel = .linear → ∀ v0 v1, tap 0 = some v0 → tap 1 = some v1 →
      s.slotValue l w = .ok (add (mul (lin 0) (real v0)) (mul (lin 1) (real v1)))) ∧
    (l.kernel = .cubic → ∀ v0 v1 v2 v3, tap (-1) = some v0 → tap 0 = some v1 → tap 1 = some v2 → tap 2 = some v3 →
      s.slotValue l w = .ok (add (add (add (mul (cub 0) (real v0)) (mul (cub 1) (real v1))) (mul (cub 2) (real v2)))
        (mul (cub 3) (real v3)))) ∧
    (l.kernel = .sinc7 → ∀ v0 v1 v2 v3 v4 v5 v6, tap (-3) = some v0 → tap (-2) = some v1 → tap (-1) = some v2 →
      tap 0 = some v3 → tap 1 = some v4 → tap 2 = some v5 → tap 3 = some v6 →
      s.slotValue l w = .ok (add (add (add (add (add (add (mul (sinc 0) (real v0)) (mul (sinc 1) (real v1)))
        (mul (sinc 2) (real v2))) (mul (sinc 3) (real v3))) (mul (sinc 4) (real v4))) (mul (sinc 5) (real v5)))
        (mul (sinc 6) (real v6)))) ∧
    (l.kernel = .silence → ∃ y, s.slotValue l w = .ok y ∧ ∀ free, bitsOfReal s.hw.fmt free y = 0)

/-- R142: with a ROM that meets the constraint, the weighted sums at zero true fraction (row 0 for LINEAR and CUBIC, row 128
for SINC7) are the centre sample exactly, sign of zero and all. -/
def Obligations.UnitWeightsReproduceTheSample : Prop :=
  ∀ (hw : Hardware) (ph : Phase), DegenerateRom hw →
    (∀ v0 v1 : Int, |v0| ≤ 2 ^ 23 → |v1| ≤ 2 ^ 23 → row ph = 0 →
      sampleValue hw .linear ph [v0, v1] = realOfInt hw.fmt v0) ∧
    (∀ v0 v1 v2 v3 : Int, |v0| ≤ 2 ^ 23 → |v1| ≤ 2 ^ 23 → |v2| ≤ 2 ^ 23 → |v3| ≤ 2 ^ 23 → row ph = 0 →
      sampleValue hw .cubic ph [v0, v1, v2, v3] = realOfInt hw.fmt v1) ∧
    ∀ v0 v1 v2 v3 v4 v5 v6 : Int, |v0| ≤ 2 ^ 23 → |v1| ≤ 2 ^ 23 → |v2| ≤ 2 ^ 23 → |v3| ≤ 2 ^ 23 → |v4| ≤ 2 ^ 23 →
      |v5| ≤ 2 ^ 23 → |v6| ≤ 2 ^ 23 → row ph = 128 →
      sampleValue hw .sinc7 ph [v0, v1, v2, v3, v4, v5, v6] = realOfInt hw.fmt v3

/-- R145: with every coefficient of magnitude at most 2^100, no slot's value is an infinity or a NaN. -/
def Obligations.ModerateCoefficientsGiveFiniteSamples : Prop :=
  ∀ (s : State) (l : Latch) (w : Work) (y : RealVal), ModerateRom s.hw → s.slotValue l w = .ok y →
    ∃ v : ℚ, y.value = some v ∧ |v| < 2 ^ 126

/-! ## The commands -/

/-- R170: NOP changes nothing. -/
def Obligations.NopChangesNothing : Prop :=
  ∀ s : State, exec .nop s = .next s

/-- R201: at a render's start, of every kernel: markers outside the invariant raise MARKERS with the four of them, whatever
the step; else a step that is a NaN, infinite, below zero or 2^32 and above raises STEP_DOMAIN with its bits. Nothing is
written (of BUSY nothing is said). -/
def Obligations.RenderStartFaultsAreMarkersThenStepDomain : Prop :=
  ∀ (i : Instr) (k : Kernel) (loop ext : Bool) (s : State), i.renderOf = some (k, loop, ext) →
    (¬ ValidMarkers s →
      ∃ left, exec i s = .fault (.recorded (.markers s.start s.end_ s.loopstart s.loopend) left) ∧
        left = { s with busy := left.busy, fault := some (.markers s.start s.end_ s.loopstart s.loopend) }) ∧
    (ValidMarkers s → (∀ v, binary64Value (s.stepHi ++ s.stepLo) = some v → v < 0 ∨ (2 : ℚ) ^ 32 ≤ v) →
      ∃ left, exec i s = .fault (.recorded (.stepDomain (s.stepHi ++ s.stepLo)) left) ∧
        left = { s with busy := left.busy, fault := some (.stepDomain (s.stepHi ++ s.stepLo)) })

/-- R161 to R166: with valid markers and a step in the domain, every render command does exactly what the passes of R162 do,
each wrap a pass of its own: the passes come to an end (R167), and the command answers the state R166 writes there, or the
fault they raise, with nothing but OUT written (R177; BUSY is left at 1, log 3). -/
def Obligations.RenderDoesWhatThePassesDo : Prop :=
  ∀ (i : Instr) (k : Kernel) (loop ext : Bool) (s : State) (incr : Phase), i.renderOf = some (k, loop, ext) →
    ValidMarkers s → setFloat (s.stepHi ++ s.stepLo) = some incr →
    (∃ e, Walk s (s.latch k loop ext incr) (s.startWork k) e) ∧
    ∀ e, Walk s (s.latch k loop ext incr) (s.startWork k) e → exec i s = conclude s k e

/-- R167, R171 to R175: RENDER.NEAREST, .LINEAR, .CUBIC, .SINC7 and .SILENCE, each with every LOOP, EXT and QUALITY, complete
with a next state, under conditions on the registers alone: valid markers, a step in the domain, and room for the phase. The
state is the one R166 writes at the end of the passes; a looping render has filled the block. -/
def Obligations.RendersComplete : Prop :=
  ∀ (i : Instr) (k : Kernel) (loop ext : Bool) (s : State) (incr : Phase), i.renderOf = some (k, loop, ext) →
    ValidMarkers s → setFloat (s.stepHi ++ s.stepLo) = some incr → PhaseRoom s loop incr →
    ∃ w, Walk s (s.latch k loop ext incr) (s.startWork k) (.done w) ∧ exec i s = .next (endState s k w) ∧
      w.n ≤ s.hw.blockCap ∧ (loop = true → w.n = s.hw.blockCap)

/-- R171 to R175, R177, R202: a command that stops does so in the fault state, with MARKERS, STEP_DOMAIN or PHASE_OVERFLOW
and no other code; no register is written back (BUSY is left at 1, log 3); and for PHASE_OVERFLOW the recorded working
phase and increment do reach 2^64, the phase's index is at `last` or below, n counts the slots written, those slots have
values and all others are as before. -/
def Obligations.RenderFaultsLeaveTheRegistersAsTheyWere : Prop :=
  ∀ (i : Instr) (s : State) (f : Fault), exec i s = .fault f →
    ∃ k loop ext info left, i.renderOf = some (k, loop, ext) ∧ f = .recorded info left ∧
      left = faultState s info left.out left.freeCtr ∧
      ((info = .markers s.start s.end_ s.loopstart s.loopend ∧ left.out = s.out) ∨
        (info = .stepDomain (s.stepHi ++ s.stepLo) ∧ left.out = s.out) ∨
        ∃ ph incr n, info = .phaseOverflow ph incr n ∧ setFloat (s.stepHi ++ s.stepLo) = some incr ∧
          2 ^ 64 ≤ ph.toNat + incr.toNat ∧ idx ph ≤ s.regionLast loop ∧ 1 ≤ n ∧ n ≤ s.hw.blockCap ∧
          (∀ slot < n, (left.out.read slot).isSome = true) ∧
          ∀ slot, n ≤ slot → left.out.read slot = s.out.read slot)

/-- The frame of every command (R59, R61, R166): where it answers a next state, NOP's is the state it was given; a render's
differs only in PHASE, HAS_LOOPED, COUNT, SHORT, BUSY, the output memory and the model's free counter; it has written the
slots below COUNT and every other slot reads as before; BUSY is 0 and SHORT says whether the block is not full. The waveform
reads as before at every entry. -/
def Obligations.CommandFrame : Prop :=
  ∀ (i : Instr) (s t : State), s.hw.wellFormed = true → exec i s = .next t →
    (i = .nop → t = s) ∧
    t = { s with
      phaseLo := t.phaseLo
      phaseHi := t.phaseHi
      hasLooped := t.hasLooped
      count := t.count
      short := t.short
      busy := t.busy
      out := t.out
      freeCtr := t.freeCtr } ∧
    (i ≠ .nop → t.busy = false ∧ t.short = decide (t.count.toNat < s.hw.blockCap) ∧
      t.count.toNat ≤ s.hw.blockCap ∧
      (∀ slot, slot < t.count.toNat → (t.out.read slot).isSome = true) ∧
      ∀ slot, t.count.toNat ≤ slot → t.out.read slot = s.out.read slot) ∧
    ∀ j, t.waveHiAt j = s.waveHiAt j ∧ t.waveLoAt j = s.waveLoAt j

/-- R168: a looping render returns n = BLOCK_CAP; a non-looping one that returns less leaves its working index past END, and a
second render with the state unchanged returns n = 0 and changes nothing but COUNT and SHORT. -/
def Obligations.ShortCountsMeanExhaustion : Prop :=
  ∀ (i : Instr) (k : Kernel) (loop ext : Bool) (s t : State), i.renderOf = some (k, loop, ext) →
    s.hw.wellFormed = true → exec i s = .next t →
    (loop = true → t.count.toNat = s.hw.blockCap ∧ t.short = false) ∧
    (loop = false → t.count.toNat < s.hw.blockCap →
      t.short = true ∧ s.end_.toNat < idx (workingPhase k t.phase) ∧
      exec i t = .next { t with count := 0, short := true })

/-- R111, R163: from a render's start to its end the working phase grows by the increment for each sample written, less a
whole number W of loop spans; a non-looping render takes none off (so its index never decreases), and HAS_LOOPED is set
exactly where W > 0. -/
def Obligations.PhaseAdvancesByTheStepLessWholeSpans : Prop :=
  ∀ (i : Instr) (k : Kernel) (loop ext : Bool) (s t : State) (incr : Phase), i.renderOf = some (k, loop, ext) →
    s.hw.wellFormed = true → setFloat (s.stepHi ++ s.stepLo) = some incr → exec i s = .next t →
    ∃ wraps : Nat,
      (workingPhase k s.phase).toNat + t.count.toNat * incr.toNat =
        (workingPhase k t.phase).toNat + wraps * (s.loopend.toNat - s.loopstart.toNat) * 2 ^ 32 ∧
      (loop = false → wraps = 0) ∧ t.hasLooped = (s.hasLooped || decide (0 < wraps))

/-- R169: after a looping LINEAR, CUBIC or SILENCE render whose start phase had its index at START or above, the index of
PHASE is in START .. LOOPEND-1. After a looping NEAREST or SINC7 render the index is LOOPEND-1 or below, and LOOPSTART-1 or
above where a wrap has occurred (the working phase is not the start's plus the increments), but for the modular value of
R105, which only a working phase below HALF leaves. -/
def Obligations.LoopingRendersEndInsideTheLoop : Prop :=
  ∀ (i : Instr) (k : Kernel) (ext : Bool) (s t : State) (incr : Phase), i.renderOf = some (k, true, ext) →
    s.hw.wellFormed = true → setFloat (s.stepHi ++ s.stepLo) = some incr → exec i s = .next t →
    ((k = .linear ∨ k = .cubic ∨ k = .silence) → s.start.toNat ≤ idx s.phase →
      s.start.toNat ≤ idx t.phase ∧ idx t.phase ≤ s.loopend.toNat - 1) ∧
    ((k = .nearest ∨ k = .sinc7) →
      ((incrHalf t.phase).toNat < 2 ^ 31 ∨ idx t.phase ≤ s.loopend.toNat - 1) ∧
      ((incrHalf t.phase).toNat ≠ (incrHalf s.phase).toNat + t.count.toNat * incr.toNat →
        (1 ≤ s.loopstart.toNat → s.loopstart.toNat - 1 ≤ idx t.phase ∧ idx t.phase ≤ s.loopend.toNat - 1) ∧
        (s.loopstart.toNat = 0 → (incrHalf t.phase).toNat < 2 ^ 31 → t.phase.toNat = (incrHalf t.phase).toNat + 2 ^ 64 - 2 ^ 31)))

/-- R176: where a LINEAR or CUBIC render completes, RENDER.SILENCE on the same state completes with the same PHASE,
HAS_LOOPED, COUNT and flags; only the values written differ, and they are zeros. For every BLOCK_CAP, so after every slot. -/
def Obligations.SilenceFollowsLinearAndCubic : Prop :=
  ∀ (i : Instr) (k : Kernel) (loop ext ext' : Bool) (q : BitVec 2) (s t : State),
    i.renderOf = some (k, loop, ext) → k = .linear ∨ k = .cubic → s.hw.wellFormed = true → exec i s = .next t →
    ∃ u, exec (.renderSilence q loop ext') s = .next u ∧ u = { t with out := u.out, freeCtr := u.freeCtr } ∧
      ∀ slot < u.count.toNat, u.out.read slot = some 0

/-- R133, R175: RENDER.SILENCE reads no waveform sample and no coefficient, and neither QUALITY nor EXT: with any other
waveform, ROM, QUALITY and EXT it does the same. -/
def Obligations.SilenceReadsNoSampleAndNoCoefficient : Prop :=
  ∀ (q q' : BitVec 2) (loop ext ext' : Bool) (s t : State) (rom : Rom) (hi : Memory (BitVec 16)) (lo : Memory (BitVec 8)),
    exec (.renderSilence q loop ext) s = .next t →
    exec (.renderSilence q' loop ext') { s with hw := { s.hw with rom := rom }, waveHi := hi, waveLo := lo } =
      .next { t with hw := { t.hw with rom := rom }, waveHi := hi, waveLo := lo }

/-- R57, R120: at standard precision no command reads a low part: with any other low parts it does the same. -/
def Obligations.StandardPrecisionReadsNoLowPart : Prop :=
  ∀ (i : Instr) (k : Kernel) (loop : Bool) (s t : State) (lo : Memory (BitVec 8)),
    i.renderOf = some (k, loop, false) → exec i s = .next t →
    exec i { s with waveLo := lo } = .next { t with waveLo := lo }

/-- R225: a render does the same in any two states that agree on the voice's context: same PHASE, HAS_LOOPED, COUNT and
SHORT, and in every slot below COUNT the same value (of a NaN's bits nothing is said, log 6). -/
def Obligations.RenderDependsOnTheVoiceContextOnly : Prop :=
  ∀ (i : Instr) (s t s' : State), SameContext s t → i ≠ .nop → exec i s = .next s' →
    ∃ t', exec i t = .next t' ∧ t'.phase = s'.phase ∧ t'.hasLooped = s'.hasLooped ∧ t'.count = s'.count ∧
      t'.short = s'.short ∧
      ∀ slot < s'.count.toNat, ∃ v v', s'.out.read slot = some v ∧ t'.out.read slot = some v' ∧
        realOfBits s.hw.fmt v' = realOfBits s.hw.fmt v

/-- R225: the host restores a saved voice context by nine register writes, which all go on: after them HAS_LOOPED, PHASE,
STEP and the markers are the saved ones and nothing else has changed; so on the build and the waveform the context was saved
on, the state has that context. -/
def Obligations.RestoringAContextGivesItBack : Prop :=
  ∀ (s t : State) (rest : List HostOp), t.fault = none →
    let u : State := { t with
      pending := rest
      hasLooped := s.hasLooped
      phaseLo := s.phaseLo
      phaseHi := s.phaseHi
      stepLo := s.stepLo
      stepHi := s.stepHi
      start := s.start
      end_ := s.end_
      loopstart := s.loopstart
      loopend := s.loopend }
    Host.Core.run core 9 { t with pending := restoreOps s ++ rest } = .next u ∧
      (s.hw = t.hw → s.waveHi = t.waveHi → s.waveLo = t.waveLo → SameContext s u)

/-! ## Whole-machine rules -/

/-- R24: HAS_LOOPED is a one-way latch: no command clears it, a non-looping render leaves it, and a step that clears it is a
host write of VFLAGS with bit 0 clear, or reset (in a render too, log 22). -/
def Obligations.OnlyTheHostClearsTheLatch : Prop :=
  (∀ (i : Instr) (s t : State), exec i s = .next t → s.hasLooped = true → t.hasLooped = true) ∧
  (∀ (i : Instr) (k : Kernel) (ext : Bool) (s t : State), i.renderOf = some (k, false, ext) → exec i s = .next t →
    t.hasLooped = s.hasLooped) ∧
  ∀ s t : State, step s = .next t → s.hasLooped = true → t.hasLooped = false →
    (∃ d rest, s.pending = .wr 0x0C d :: rest ∧ d.toNat % 2 = 0) ∨ s.resetting

/-- R22 to R29, R53, R59, R60: of all steps, only one that starts a render (with another agent's write falling in it or not,
log 12), and reset (in a render too, log 22), change COUNT, SHORT or an output slot; only these and a host write of the
register change PHASE and HAS_LOOPED; only the host's (or another agent's) waveform write changes the waveform; STEP and the
markers change only by a host write of that register, to the word written, or by reset; the ROM, CAPACITY and the other
parameters never change. -/
def Obligations.WhoMayChangeWhat : Prop :=
  ∀ s t : State, step s = .next t →
    ((t.count ≠ s.count ∨ t.short ≠ s.short ∨ t.out ≠ s.out) → s.rendering ∨ s.resetting) ∧
    (∀ p ∈ [(0x10, s.phaseLo, t.phaseLo), (0x14, s.phaseHi, t.phaseHi)],
      p.2.2 ≠ p.2.1 → (∃ rest, s.pending = .wr p.1 p.2.2 :: rest) ∨ s.rendering ∨ s.resetting) ∧
    (t.hasLooped ≠ s.hasLooped →
      (∃ rest, s.pending = .wr 0x0C (BitVec.ofNat 32 t.hasLooped.toNat) :: rest) ∨ s.rendering ∨ s.resetting) ∧
    ((t.waveHi ≠ s.waveHi ∨ t.waveLo ≠ s.waveLo) →
      (∃ index hi lo rest, s.pending = .wave index hi lo :: rest) ∨
      ∃ w after index hi lo rest, s.pending = .issueRaced w after index hi lo :: rest) ∧
    (∀ p ∈ [(0x18, s.stepLo, t.stepLo), (0x1C, s.stepHi, t.stepHi), (0x20, s.start, t.start), (0x24, s.end_, t.end_),
        (0x28, s.loopstart, t.loopstart), (0x2C, s.loopend, t.loopend)],
      p.2.2 ≠ p.2.1 → (∃ rest, s.pending = .wr p.1 p.2.2 :: rest) ∨ s.resetting) ∧
    t.hw = s.hw

/-- R203, R206: another agent's waveform write that lands when `after` slots of a render have been written, the render not
ended before, is WAVE_RACE with the index written; one that lands after the render's end is an ordinary write (log 12). -/
def Obligations.WaveformWriteDuringARenderIsARace : Prop :=
  ∀ (i : Instr) (k : Kernel) (loop ext : Bool) (s t : State) (w : Word) (after index : Nat) (hi : BitVec 16)
    (lo : Option (BitVec 8)) (rest : List HostOp),
    s.fault = none → s.hw.wellFormed = true → index < s.hw.waveDepth → decode w = .ok i →
    i.renderOf = some (k, loop, ext) → exec i { s with pending := rest } = .next t →
    (after ≤ t.count.toNat →
      ∃ left, step { s with pending := .issueRaced w after index hi lo :: rest } =
        .fault (.recorded (.waveRace index) left)) ∧
    (t.count.toNat < after →
      step { s with pending := .issueRaced w after index hi lo :: rest } = .next (t.writeWave index hi lo))

/-- The machine's invariant (R6, R22, R23, R51, R53, R233) holds at reset, whatever the open parameters are. -/
def Obligations.ResetHasTheInvariant : Prop := State.reset.Inv

/-- Every step that goes on keeps the invariant: the parameters in range and the ROM finite, BUSY 0, COUNT within the block,
the memories in canonical form and within their bounds, every slot's pattern within REAL_FMT, and OUT[0..COUNT-1] all with
values. From every state that has it, not only from those a run reaches. -/
def Obligations.EveryStepKeepsTheInvariant : Prop :=
  ∀ s t : State, s.Inv → step s = .next t → t.Inv

/-! ## What a render stores, and what falls into one -/

/-- R162, R165, R61: `OutWrite(n, y)` stores VALUE: where a slot's value is y, slot n reads after the write as a pattern that
stands for y, and every other slot as before. So after a render that goes on, slot j below COUNT reads as a pattern that
stands for VALUE(K, ph, idx(ph)), where ph is the start's working phase plus j increments less c loop spans, c the least
number that leaves the index at `last` or below (0 where the render does not loop), and the latch is the start's, or set
where c > 0. -/
def Obligations.EverySlotReadsAsItsValue : Prop :=
  (∀ (s : State) (l : Latch) (w : Work) (y : RealVal), s.slotValue l w = .ok y →
    (∃ v, (w.outWrite s.hw.fmt y).out.read w.n = some v ∧ realOfBits s.hw.fmt v = y) ∧
    ∀ slot, slot ≠ w.n → (w.outWrite s.hw.fmt y).out.read slot = w.out.read slot) ∧
  ∀ (i : Instr) (k : Kernel) (loop ext : Bool) (s t : State) (incr : Phase), i.renderOf = some (k, loop, ext) →
    setFloat (s.stepHi ++ s.stepLo) = some incr → exec i s = .next t →
    ∀ j < t.count.toNat, ∃ (ph : Phase) (c : Nat) (y : RealVal) (v : RealBits),
      (workingPhase k s.phase).toNat + j * incr.toNat =
        ph.toNat + c * (s.loopend.toNat - s.loopstart.toNat) * 2 ^ 32 ∧
      idx ph ≤ s.regionLast loop ∧
      (0 < c → loop = true ∧ s.regionLast loop < idx ph + (s.loopend.toNat - s.loopstart.toNat)) ∧
      s.slotValue (s.latch k loop ext incr) ⟨ph, s.hasLooped || decide (0 < c), j, s.out, s.freeCtr⟩ = .ok y ∧
      t.out.read j = some v ∧ realOfBits s.hw.fmt v = y

/-- R220, R39, S3: a reset that falls into a render when `after` slots have been written, the render not ended before,
abandons it: every register reads as after reset, the fault record is clear, the waveform and the parameters are as they
were, the slots the render had written hold some value of REAL_FMT's width, no other slot has one; any value of that width
can be what such a slot holds. One that falls after the render's end is an ordinary reset. The form is the model's (log
22). -/
def Obligations.ResetDuringARenderAbandonsIt : Prop :=
  (∀ (i : Instr) (k : Kernel) (loop ext : Bool) (s t : State) (w : Word) (after : Nat) (rest : List HostOp),
    s.fault = none → s.hw.wellFormed = true → decode w = .ok i → i.renderOf = some (k, loop, ext) →
    exec i { s with pending := rest } = .next t →
    ∃ u, step { s with pending := .issueReset w after :: rest } = .next u ∧ u.pending = rest ∧ RegistersAtReset u ∧
      u.fault = none ∧ u.waveHi = s.waveHi ∧ u.waveLo = s.waveLo ∧ u.hw = s.hw ∧
      (after ≤ t.count.toNat → ∀ slot,
        (slot < after → ∃ v, u.out.read slot = some v ∧ (s.hw.fmt = .binary32 → v.toNat < 2 ^ 32)) ∧
        (after ≤ slot → u.out.read slot = none)) ∧
      (t.count.toNat < after → ∀ slot, u.out.read slot = none)) ∧
  ∀ (fmt : RealFmt) (v : RealBits), (fmt = .binary32 → v.toNat < 2 ^ 32) → ∃ free, anyPattern fmt free = v

/-- R206: a reserved word faults with RESERVED_CMD before anything that falls into its command, whatever that is (a write of
an entry that does not exist too); then the render start's MARKERS, then STEP_DOMAIN, come before it. What falls in has the
model's form (logs 12 and 22). -/
def Obligations.EarlierFaultsComeFirst : Prop :=
  ∀ (s : State) (w : Word) (after index : Nat) (hi : BitVec 16) (lo : Option (BitVec 8)) (rest : List HostOp)
    (op : HostOp), s.fault = none → op = .issueRaced w after index hi lo ∨ op = .issueReset w after →
    (∀ e, decode w = .error e →
      ∃ left, step { s with pending := op :: rest } = .fault (.recorded (.reservedCmd w) left)) ∧
    ∀ (i : Instr) (k : Kernel) (loop ext : Bool), decode w = .ok i → i.renderOf = some (k, loop, ext) →
      (¬ ValidMarkers s → ∃ left, step { s with pending := op :: rest } =
        .fault (.recorded (.markers s.start s.end_ s.loopstart s.loopend) left)) ∧
      (ValidMarkers s → setFloat (s.stepHi ++ s.stepLo) = none → ∃ left, step { s with pending := op :: rest } =
        .fault (.recorded (.stepDomain (s.stepHi ++ s.stepLo)) left))
end

