-- ==== Sys2Proof/Laws/State.lean ====
section
/-! SUPPORT. One lemma for each field of each update of the state, so that no proof unfolds a record update. -/

namespace Sys2Proof.Machine

section setBusy
variable (s : State)

@[simp] theorem State.setBusy_hw : s.setBusy.hw = s.hw := rfl
@[simp] theorem State.setBusy_busy : s.setBusy.busy = true := rfl
@[simp] theorem State.setBusy_short : s.setBusy.short = s.short := rfl
@[simp] theorem State.setBusy_count : s.setBusy.count = s.count := rfl
@[simp] theorem State.setBusy_hasLooped : s.setBusy.hasLooped = s.hasLooped := rfl
@[simp] theorem State.setBusy_phaseLo : s.setBusy.phaseLo = s.phaseLo := rfl
@[simp] theorem State.setBusy_phaseHi : s.setBusy.phaseHi = s.phaseHi := rfl
@[simp] theorem State.setBusy_stepLo : s.setBusy.stepLo = s.stepLo := rfl
@[simp] theorem State.setBusy_stepHi : s.setBusy.stepHi = s.stepHi := rfl
@[simp] theorem State.setBusy_start : s.setBusy.start = s.start := rfl
@[simp] theorem State.setBusy_end_ : s.setBusy.end_ = s.end_ := rfl
@[simp] theorem State.setBusy_loopstart : s.setBusy.loopstart = s.loopstart := rfl
@[simp] theorem State.setBusy_loopend : s.setBusy.loopend = s.loopend := rfl
@[simp] theorem State.setBusy_waveHi : s.setBusy.waveHi = s.waveHi := rfl
@[simp] theorem State.setBusy_waveLo : s.setBusy.waveLo = s.waveLo := rfl
@[simp] theorem State.setBusy_out : s.setBusy.out = s.out := rfl
@[simp] theorem State.setBusy_fault : s.setBusy.fault = s.fault := rfl
@[simp] theorem State.setBusy_pending : s.setBusy.pending = s.pending := rfl
@[simp] theorem State.setBusy_answer : s.setBusy.answer = s.answer := rfl
@[simp] theorem State.setBusy_freeCtr : s.setBusy.freeCtr = s.freeCtr := rfl

end setBusy

section withOut
variable (s : State) (w : Work)

@[simp] theorem State.withOut_hw : (s.withOut w).hw = s.hw := rfl
@[simp] theorem State.withOut_busy : (s.withOut w).busy = s.busy := rfl
@[simp] theorem State.withOut_short : (s.withOut w).short = s.short := rfl
@[simp] theorem State.withOut_count : (s.withOut w).count = s.count := rfl
@[simp] theorem State.withOut_hasLooped : (s.withOut w).hasLooped = s.hasLooped := rfl
@[simp] theorem State.withOut_phaseLo : (s.withOut w).phaseLo = s.phaseLo := rfl
@[simp] theorem State.withOut_phaseHi : (s.withOut w).phaseHi = s.phaseHi := rfl
@[simp] theorem State.withOut_stepLo : (s.withOut w).stepLo = s.stepLo := rfl
@[simp] theorem State.withOut_stepHi : (s.withOut w).stepHi = s.stepHi := rfl
@[simp] theorem State.withOut_start : (s.withOut w).start = s.start := rfl
@[simp] theorem State.withOut_end_ : (s.withOut w).end_ = s.end_ := rfl
@[simp] theorem State.withOut_loopstart : (s.withOut w).loopstart = s.loopstart := rfl
@[simp] theorem State.withOut_loopend : (s.withOut w).loopend = s.loopend := rfl
@[simp] theorem State.withOut_waveHi : (s.withOut w).waveHi = s.waveHi := rfl
@[simp] theorem State.withOut_waveLo : (s.withOut w).waveLo = s.waveLo := rfl
@[simp] theorem State.withOut_out : (s.withOut w).out = w.out := rfl
@[simp] theorem State.withOut_fault : (s.withOut w).fault = s.fault := rfl
@[simp] theorem State.withOut_pending : (s.withOut w).pending = s.pending := rfl
@[simp] theorem State.withOut_answer : (s.withOut w).answer = s.answer := rfl
@[simp] theorem State.withOut_freeCtr : (s.withOut w).freeCtr = w.freeCtr := rfl

end withOut

section withPhase
variable (s : State) (p : Phase)

@[simp] theorem State.withPhase_hw : (s.withPhase p).hw = s.hw := rfl
@[simp] theorem State.withPhase_busy : (s.withPhase p).busy = s.busy := rfl
@[simp] theorem State.withPhase_short : (s.withPhase p).short = s.short := rfl
@[simp] theorem State.withPhase_count : (s.withPhase p).count = s.count := rfl
@[simp] theorem State.withPhase_hasLooped : (s.withPhase p).hasLooped = s.hasLooped := rfl
@[simp] theorem State.withPhase_phaseLo : (s.withPhase p).phaseLo = p.extractLsb' 0 32 := rfl
@[simp] theorem State.withPhase_phaseHi : (s.withPhase p).phaseHi = p.extractLsb' 32 32 := rfl
@[simp] theorem State.withPhase_stepLo : (s.withPhase p).stepLo = s.stepLo := rfl
@[simp] theorem State.withPhase_stepHi : (s.withPhase p).stepHi = s.stepHi := rfl
@[simp] theorem State.withPhase_start : (s.withPhase p).start = s.start := rfl
@[simp] theorem State.withPhase_end_ : (s.withPhase p).end_ = s.end_ := rfl
@[simp] theorem State.withPhase_loopstart : (s.withPhase p).loopstart = s.loopstart := rfl
@[simp] theorem State.withPhase_loopend : (s.withPhase p).loopend = s.loopend := rfl
@[simp] theorem State.withPhase_waveHi : (s.withPhase p).waveHi = s.waveHi := rfl
@[simp] theorem State.withPhase_waveLo : (s.withPhase p).waveLo = s.waveLo := rfl
@[simp] theorem State.withPhase_out : (s.withPhase p).out = s.out := rfl
@[simp] theorem State.withPhase_fault : (s.withPhase p).fault = s.fault := rfl
@[simp] theorem State.withPhase_pending : (s.withPhase p).pending = s.pending := rfl
@[simp] theorem State.withPhase_answer : (s.withPhase p).answer = s.answer := rfl
@[simp] theorem State.withPhase_freeCtr : (s.withPhase p).freeCtr = s.freeCtr := rfl

end withPhase

section writeFlags
variable (s : State) (looped : Bool) (n : Nat)

@[simp] theorem State.writeFlags_hw : (s.writeFlags looped n).hw = s.hw := rfl
@[simp] theorem State.writeFlags_busy : (s.writeFlags looped n).busy = false := rfl
@[simp] theorem State.writeFlags_short : (s.writeFlags looped n).short = shortCount n s.hw.blockCap := rfl
@[simp] theorem State.writeFlags_count : (s.writeFlags looped n).count = BitVec.ofNat 32 n := rfl
@[simp] theorem State.writeFlags_hasLooped : (s.writeFlags looped n).hasLooped = looped := rfl
@[simp] theorem State.writeFlags_phaseLo : (s.writeFlags looped n).phaseLo = s.phaseLo := rfl
@[simp] theorem State.writeFlags_phaseHi : (s.writeFlags looped n).phaseHi = s.phaseHi := rfl
@[simp] theorem State.writeFlags_stepLo : (s.writeFlags looped n).stepLo = s.stepLo := rfl
@[simp] theorem State.writeFlags_stepHi : (s.writeFlags looped n).stepHi = s.stepHi := rfl
@[simp] theorem State.writeFlags_start : (s.writeFlags looped n).start = s.start := rfl
@[simp] theorem State.writeFlags_end_ : (s.writeFlags looped n).end_ = s.end_ := rfl
@[simp] theorem State.writeFlags_loopstart : (s.writeFlags looped n).loopstart = s.loopstart := rfl
@[simp] theorem State.writeFlags_loopend : (s.writeFlags looped n).loopend = s.loopend := rfl
@[simp] theorem State.writeFlags_waveHi : (s.writeFlags looped n).waveHi = s.waveHi := rfl
@[simp] theorem State.writeFlags_waveLo : (s.writeFlags looped n).waveLo = s.waveLo := rfl
@[simp] theorem State.writeFlags_out : (s.writeFlags looped n).out = s.out := rfl
@[simp] theorem State.writeFlags_fault : (s.writeFlags looped n).fault = s.fault := rfl
@[simp] theorem State.writeFlags_pending : (s.writeFlags looped n).pending = s.pending := rfl
@[simp] theorem State.writeFlags_answer : (s.writeFlags looped n).answer = s.answer := rfl
@[simp] theorem State.writeFlags_freeCtr : (s.writeFlags looped n).freeCtr = s.freeCtr := rfl

end writeFlags

section renderEnd
variable (s : State) (k : Kernel) (w : Work)

@[simp] theorem State.renderEnd_hw : (s.renderEnd k w).hw = s.hw := rfl
@[simp] theorem State.renderEnd_busy : (s.renderEnd k w).busy = false := rfl
@[simp] theorem State.renderEnd_short : (s.renderEnd k w).short = shortCount w.n s.hw.blockCap := rfl
@[simp] theorem State.renderEnd_count : (s.renderEnd k w).count = BitVec.ofNat 32 w.n := rfl
@[simp] theorem State.renderEnd_hasLooped : (s.renderEnd k w).hasLooped = w.looped := rfl
@[simp] theorem State.renderEnd_phaseLo : (s.renderEnd k w).phaseLo = (truePhase k w.ph).extractLsb' 0 32 := rfl
@[simp] theorem State.renderEnd_phaseHi : (s.renderEnd k w).phaseHi = (truePhase k w.ph).extractLsb' 32 32 := rfl
@[simp] theorem State.renderEnd_stepLo : (s.renderEnd k w).stepLo = s.stepLo := rfl
@[simp] theorem State.renderEnd_stepHi : (s.renderEnd k w).stepHi = s.stepHi := rfl
@[simp] theorem State.renderEnd_start : (s.renderEnd k w).start = s.start := rfl
@[simp] theorem State.renderEnd_end_ : (s.renderEnd k w).end_ = s.end_ := rfl
@[simp] theorem State.renderEnd_loopstart : (s.renderEnd k w).loopstart = s.loopstart := rfl
@[simp] theorem State.renderEnd_loopend : (s.renderEnd k w).loopend = s.loopend := rfl
@[simp] theorem State.renderEnd_waveHi : (s.renderEnd k w).waveHi = s.waveHi := rfl
@[simp] theorem State.renderEnd_waveLo : (s.renderEnd k w).waveLo = s.waveLo := rfl
@[simp] theorem State.renderEnd_out : (s.renderEnd k w).out = w.out := rfl
@[simp] theorem State.renderEnd_fault : (s.renderEnd k w).fault = s.fault := rfl
@[simp] theorem State.renderEnd_pending : (s.renderEnd k w).pending = s.pending := rfl
@[simp] theorem State.renderEnd_answer : (s.renderEnd k w).answer = s.answer := rfl
@[simp] theorem State.renderEnd_freeCtr : (s.renderEnd k w).freeCtr = w.freeCtr := rfl

end renderEnd

section writeWave
variable (s : State) (i : Nat) (hi : BitVec 16) (lo : Option (BitVec 8))

@[simp] theorem State.writeWave_hw : (s.writeWave i hi lo).hw = s.hw := rfl
@[simp] theorem State.writeWave_busy : (s.writeWave i hi lo).busy = s.busy := rfl
@[simp] theorem State.writeWave_short : (s.writeWave i hi lo).short = s.short := rfl
@[simp] theorem State.writeWave_count : (s.writeWave i hi lo).count = s.count := rfl
@[simp] theorem State.writeWave_hasLooped : (s.writeWave i hi lo).hasLooped = s.hasLooped := rfl
@[simp] theorem State.writeWave_phaseLo : (s.writeWave i hi lo).phaseLo = s.phaseLo := rfl
@[simp] theorem State.writeWave_phaseHi : (s.writeWave i hi lo).phaseHi = s.phaseHi := rfl
@[simp] theorem State.writeWave_stepLo : (s.writeWave i hi lo).stepLo = s.stepLo := rfl
@[simp] theorem State.writeWave_stepHi : (s.writeWave i hi lo).stepHi = s.stepHi := rfl
@[simp] theorem State.writeWave_start : (s.writeWave i hi lo).start = s.start := rfl
@[simp] theorem State.writeWave_end_ : (s.writeWave i hi lo).end_ = s.end_ := rfl
@[simp] theorem State.writeWave_loopstart : (s.writeWave i hi lo).loopstart = s.loopstart := rfl
@[simp] theorem State.writeWave_loopend : (s.writeWave i hi lo).loopend = s.loopend := rfl
@[simp] theorem State.writeWave_waveHi : (s.writeWave i hi lo).waveHi = s.waveHi.write i hi := rfl
@[simp] theorem State.writeWave_out : (s.writeWave i hi lo).out = s.out := rfl
@[simp] theorem State.writeWave_fault : (s.writeWave i hi lo).fault = s.fault := rfl
@[simp] theorem State.writeWave_pending : (s.writeWave i hi lo).pending = s.pending := rfl
@[simp] theorem State.writeWave_answer : (s.writeWave i hi lo).answer = s.answer := rfl
@[simp] theorem State.writeWave_freeCtr : (s.writeWave i hi lo).freeCtr = s.freeCtr := rfl

end writeWave

section resetCore
variable (s : State)

@[simp] theorem State.resetCore_hw : s.resetCore.hw = s.hw := rfl
@[simp] theorem State.resetCore_busy : s.resetCore.busy = false := rfl
@[simp] theorem State.resetCore_short : s.resetCore.short = false := rfl
@[simp] theorem State.resetCore_count : s.resetCore.count = 0 := rfl
@[simp] theorem State.resetCore_hasLooped : s.resetCore.hasLooped = false := rfl
@[simp] theorem State.resetCore_phaseLo : s.resetCore.phaseLo = 0 := rfl
@[simp] theorem State.resetCore_phaseHi : s.resetCore.phaseHi = 0 := rfl
@[simp] theorem State.resetCore_stepLo : s.resetCore.stepLo = 0 := rfl
@[simp] theorem State.resetCore_stepHi : s.resetCore.stepHi = 0 := rfl
@[simp] theorem State.resetCore_start : s.resetCore.start = 0 := rfl
@[simp] theorem State.resetCore_end_ : s.resetCore.end_ = 0 := rfl
@[simp] theorem State.resetCore_loopstart : s.resetCore.loopstart = 0 := rfl
@[simp] theorem State.resetCore_loopend : s.resetCore.loopend = 0 := rfl
@[simp] theorem State.resetCore_waveHi : s.resetCore.waveHi = s.waveHi := rfl
@[simp] theorem State.resetCore_waveLo : s.resetCore.waveLo = s.waveLo := rfl
@[simp] theorem State.resetCore_out : s.resetCore.out = [] := rfl
@[simp] theorem State.resetCore_fault : s.resetCore.fault = none := rfl
@[simp] theorem State.resetCore_pending : s.resetCore.pending = s.pending := rfl
@[simp] theorem State.resetCore_answer : s.resetCore.answer = none := rfl
@[simp] theorem State.resetCore_freeCtr : s.resetCore.freeCtr = s.freeCtr := rfl

end resetCore

section racedWave
variable (s : State) (i : Nat)

@[simp] theorem State.racedWave_hw : (s.racedWave i).hw = s.hw := rfl
@[simp] theorem State.racedWave_busy : (s.racedWave i).busy = s.busy := rfl
@[simp] theorem State.racedWave_short : (s.racedWave i).short = s.short := rfl
@[simp] theorem State.racedWave_count : (s.racedWave i).count = s.count := rfl
@[simp] theorem State.racedWave_hasLooped : (s.racedWave i).hasLooped = s.hasLooped := rfl
@[simp] theorem State.racedWave_phaseLo : (s.racedWave i).phaseLo = s.phaseLo := rfl
@[simp] theorem State.racedWave_phaseHi : (s.racedWave i).phaseHi = s.phaseHi := rfl
@[simp] theorem State.racedWave_stepLo : (s.racedWave i).stepLo = s.stepLo := rfl
@[simp] theorem State.racedWave_stepHi : (s.racedWave i).stepHi = s.stepHi := rfl
@[simp] theorem State.racedWave_start : (s.racedWave i).start = s.start := rfl
@[simp] theorem State.racedWave_end_ : (s.racedWave i).end_ = s.end_ := rfl
@[simp] theorem State.racedWave_loopstart : (s.racedWave i).loopstart = s.loopstart := rfl
@[simp] theorem State.racedWave_loopend : (s.racedWave i).loopend = s.loopend := rfl
@[simp] theorem State.racedWave_waveHi : (s.racedWave i).waveHi = s.waveHi.write i (Config.racedHi s.freeCtr) := rfl
@[simp] theorem State.racedWave_waveLo : (s.racedWave i).waveLo = s.waveLo.write i (Config.racedLo s.freeCtr) := rfl
@[simp] theorem State.racedWave_out : (s.racedWave i).out = s.out := rfl
@[simp] theorem State.racedWave_fault : (s.racedWave i).fault = s.fault := rfl
@[simp] theorem State.racedWave_pending : (s.racedWave i).pending = s.pending := rfl
@[simp] theorem State.racedWave_answer : (s.racedWave i).answer = s.answer := rfl
@[simp] theorem State.racedWave_freeCtr : (s.racedWave i).freeCtr = s.freeCtr + 1 := rfl

end racedWave

section abandon
variable (s : State) (w : Work)

@[simp] theorem State.abandon_hw : (s.abandon w).hw = s.hw := rfl
@[simp] theorem State.abandon_busy : (s.abandon w).busy = false := rfl
@[simp] theorem State.abandon_short : (s.abandon w).short = false := rfl
@[simp] theorem State.abandon_count : (s.abandon w).count = 0 := rfl
@[simp] theorem State.abandon_hasLooped : (s.abandon w).hasLooped = false := rfl
@[simp] theorem State.abandon_phaseLo : (s.abandon w).phaseLo = 0 := rfl
@[simp] theorem State.abandon_phaseHi : (s.abandon w).phaseHi = 0 := rfl
@[simp] theorem State.abandon_stepLo : (s.abandon w).stepLo = 0 := rfl
@[simp] theorem State.abandon_stepHi : (s.abandon w).stepHi = 0 := rfl
@[simp] theorem State.abandon_start : (s.abandon w).start = 0 := rfl
@[simp] theorem State.abandon_end_ : (s.abandon w).end_ = 0 := rfl
@[simp] theorem State.abandon_loopstart : (s.abandon w).loopstart = 0 := rfl
@[simp] theorem State.abandon_loopend : (s.abandon w).loopend = 0 := rfl
@[simp] theorem State.abandon_waveHi : (s.abandon w).waveHi = s.waveHi := rfl
@[simp] theorem State.abandon_waveLo : (s.abandon w).waveLo = s.waveLo := rfl
@[simp] theorem State.abandon_out : (s.abandon w).out = abandonedOut s.hw.fmt w.freeCtr w.n := rfl
@[simp] theorem State.abandon_fault : (s.abandon w).fault = none := rfl
@[simp] theorem State.abandon_pending : (s.abandon w).pending = s.pending := rfl
@[simp] theorem State.abandon_answer : (s.abandon w).answer = none := rfl
@[simp] theorem State.abandon_freeCtr : (s.abandon w).freeCtr = w.freeCtr + w.n := rfl

end abandon

@[simp] theorem State.writeWave_waveLo_some (s : State) (i : Nat) (hi : BitVec 16) (b : BitVec 8) :
    (s.writeWave i hi (some b)).waveLo = s.waveLo.write i b := rfl
@[simp] theorem State.writeWave_waveLo_none (s : State) (i : Nat) (hi : BitVec 16) :
    (s.writeWave i hi none).waveLo = s.waveLo := rfl

section work
variable (fmt : RealFmt) (l : Latch) (w : Work) (y : RealVal)

@[simp] theorem Work.outWrite_ph : (w.outWrite fmt y).ph = w.ph := rfl
@[simp] theorem Work.outWrite_looped : (w.outWrite fmt y).looped = w.looped := rfl
@[simp] theorem Work.outWrite_n : (w.outWrite fmt y).n = w.n + 1 := rfl
@[simp] theorem Work.outWrite_out :
    (w.outWrite fmt y).out = w.out.write w.n (bitsOfReal fmt (Config.freeNan w.freeCtr) y) := rfl
@[simp] theorem Work.wrapped_looped : (w.wrapped l).looped = true := rfl
@[simp] theorem Work.wrapped_n : (w.wrapped l).n = w.n := rfl
@[simp] theorem Work.wrapped_out : (w.wrapped l).out = w.out := rfl
@[simp] theorem Work.wrapped_freeCtr : (w.wrapped l).freeCtr = w.freeCtr := rfl
@[simp] theorem Work.wrapped_ph :
    (w.wrapped l).ph = subInt w.ph (wrapCount (idx w.ph) l.last l.span * l.span) := rfl
@[simp] theorem Work.wrapOnce_looped : (w.wrapOnce l).looped = true := rfl
@[simp] theorem Work.wrapOnce_n : (w.wrapOnce l).n = w.n := rfl
@[simp] theorem Work.wrapOnce_out : (w.wrapOnce l).out = w.out := rfl
@[simp] theorem Work.wrapOnce_freeCtr : (w.wrapOnce l).freeCtr = w.freeCtr := rfl
@[simp] theorem Work.wrapOnce_ph : (w.wrapOnce l).ph = subInt w.ph l.span := rfl

end work

section latch
variable (s : State) (k : Kernel) (loop ext : Bool) (incr : Phase)

@[simp] theorem State.latch_kernel : (s.latch k loop ext incr).kernel = k := rfl
@[simp] theorem State.latch_loop : (s.latch k loop ext incr).loop = loop := rfl
@[simp] theorem State.latch_ext : (s.latch k loop ext incr).ext = ext := rfl
@[simp] theorem State.latch_incr : (s.latch k loop ext incr).incr = incr := rfl
@[simp] theorem State.latch_last : (s.latch k loop ext incr).last = s.regionLast loop := rfl
@[simp] theorem State.latch_span :
    (s.latch k loop ext incr).span = s.loopend.toNat - s.loopstart.toNat := rfl
@[simp] theorem State.startWork_ph : (s.startWork k).ph = workingPhase k s.phase := rfl
@[simp] theorem State.startWork_looped : (s.startWork k).looped = s.hasLooped := rfl
@[simp] theorem State.startWork_n : (s.startWork k).n = 0 := rfl
@[simp] theorem State.startWork_out : (s.startWork k).out = s.out := rfl
@[simp] theorem State.startWork_freeCtr : (s.startWork k).freeCtr = s.freeCtr := rfl

end latch

/-- What is put in the register pair is what the pair reads as (R25). -/
@[simp] theorem State.withPhase_phase (s : State) (p : Phase) : (s.withPhase p).phase = p := by
  simp only [State.phase, State.withPhase_phaseHi, State.withPhase_phaseLo]
  ext i hi
  simp only [BitVec.getElem_append, BitVec.getElem_extractLsb']
  split <;> simp_all

/-- The phase a render leaves in the register pair (R166). -/
@[simp] theorem State.renderEnd_phase (s : State) (k : Kernel) (w : Work) :
    (s.renderEnd k w).phase = truePhase k w.ph :=
  State.withPhase_phase (s.withOut w) (truePhase k w.ph)

theorem State.markersOk_iff (s : State) : s.markersOk = true ↔ ValidMarkers s := by
  simp [State.markersOk, ValidMarkers, and_assoc]

end Sys2Proof.Machine
end

