-- ==== Sys2Proof/Laws/Memory.lean ====
section
/-! SUPPORT. The laws of the memory operations: read after write, and that a write keeps the canonical form. -/

namespace Sys2Proof.Machine.Memory

variable {α : Type}

@[simp] theorem read_write_same (m : Memory α) (i : Nat) (v : α) : (m.write i v).read i = some v := by
  induction m with
  | nil => simp [write, read]
  | cons e rest ih =>
    obtain ⟨k, u⟩ := e
    simp only [write]
    split
    · simp [read]
    · split
      · simp [read]
      · have : k ≠ i := by omega
        simp [read, this, ih]

@[simp] theorem read_write_other (m : Memory α) {i j : Nat} (v : α) (h : j ≠ i) :
    (m.write i v).read j = m.read j := by
  induction m with
  | nil => simp [write, read, h.symm]
  | cons e rest ih =>
    obtain ⟨k, u⟩ := e
    simp only [write]
    split
    · simp [read, h.symm]
    · split
      · subst_vars; simp [read, h.symm]
      · simp [read, ih]

theorem read_write (m : Memory α) (i j : Nat) (v : α) :
    (m.write i v).read j = if j = i then some v else m.read j := by
  split
  · subst_vars; simp
  · simp [*]

theorem above_write {a i : Nat} {m : Memory α} (v : α) (hm : m.above a = true) (hi : a < i) :
    (m.write i v).above a = true := by
  cases m with
  | nil => simpa [write, above] using hi
  | cons e rest =>
    obtain ⟨k, u⟩ := e
    simp only [write]
    split
    · simpa [above] using hi
    · split
      · simpa [above] using hi
      · simpa [above] using hm

/-- A write keeps the canonical form. -/
theorem wf_write {m : Memory α} (i : Nat) (v : α) (h : m.wf = true) : (m.write i v).wf = true := by
  induction m with
  | nil => simp [write, wf, above]
  | cons e rest ih =>
    obtain ⟨k, u⟩ := e
    simp only [wf, Bool.and_eq_true] at h
    simp only [write]
    split
    · rename_i hik
      simp only [wf, Bool.and_eq_true]
      exact ⟨by simpa [above] using hik, h⟩
    · split
      · subst_vars; simp [wf, h]
      · simp only [wf, Bool.and_eq_true]
        exact ⟨above_write v h.1 (by omega), ih h.2⟩

/-- A write below the limit keeps every entry below it. -/
theorem below_write {m : Memory α} {limit i : Nat} (v : α) (h : m.below limit = true) (hi : i < limit) :
    (m.write i v).below limit = true := by
  induction m with
  | nil => simpa [write, below] using hi
  | cons e rest ih =>
    obtain ⟨k, u⟩ := e
    simp only [below, Bool.and_eq_true, decide_eq_true_eq] at h
    simp only [write]
    split
    · simp [below, *]
    · split
      · simp [below, *]
      · simp [below, *]

/-- Nothing is listed at or above the limit. -/
theorem read_of_below {m : Memory α} {limit i : Nat} (h : m.below limit = true) (hi : limit ≤ i) :
    m.read i = none := by
  induction m with
  | nil => rfl
  | cons e rest ih =>
    obtain ⟨k, u⟩ := e
    simp only [below, Bool.and_eq_true, decide_eq_true_eq] at h
    have : k ≠ i := by omega
    simp [read, this, ih h.2]

theorem read_of_above {m : Memory α} {a i : Nat} (hwf : m.wf = true) (h : m.above a = true) (hi : i ≤ a) :
    m.read i = none := by
  induction m generalizing a with
  | nil => rfl
  | cons e rest ih =>
    obtain ⟨k, u⟩ := e
    simp only [wf, Bool.and_eq_true] at hwf
    simp only [above, decide_eq_true_eq] at h
    have : k ≠ i := by omega
    simp only [read, this, if_false]
    exact ih hwf.2 hwf.1 (by omega)

/-- Memories in canonical form that read alike are the same data. -/
theorem ext_read {m₁ m₂ : Memory α} (h₁ : m₁.wf = true) (h₂ : m₂.wf = true)
    (h : ∀ i, m₁.read i = m₂.read i) : m₁ = m₂ := by
  induction m₁ generalizing m₂ with
  | nil =>
    cases m₂ with
    | nil => rfl
    | cons e rest => obtain ⟨k, u⟩ := e; simpa [read] using h k
  | cons e rest ih =>
    obtain ⟨k, u⟩ := e
    cases m₂ with
    | nil => simpa [read] using h k
    | cons e' rest' =>
      obtain ⟨k', u'⟩ := e'
      simp only [wf, Bool.and_eq_true] at h₁ h₂
      have hk : k = k' := by
        rcases Nat.lt_trichotomy k k' with hlt | heq | hgt
        · have := h k
          rw [show read ((k', u') :: rest') k = none by
            simp only [read, show k' ≠ k by omega, if_false]
            exact read_of_above h₂.2 h₂.1 (by omega)] at this
          simp [read] at this
        · exact heq
        · have := h k'
          rw [show read ((k, u) :: rest) k' = none by
            simp only [read, show k ≠ k' by omega, if_false]
            exact read_of_above h₁.2 h₁.1 (by omega)] at this
          simp [read] at this
      subst hk
      have hu : u = u' := by simpa [read] using h k
      subst hu
      congr 1
      refine ih h₁.2 h₂.2 fun i => ?_
      by_cases hi : k = i
      · subst hi
        rw [read_of_above h₁.2 h₁.1 (Nat.le_refl _), read_of_above h₂.2 h₂.1 (Nat.le_refl _)]
      · simpa [read, hi] using h i

end Sys2Proof.Machine.Memory

namespace Sys2Proof.Machine

/-- The memories of the state after reset are in canonical form. -/
theorem State.reset_wf : State.reset.waveHi.wf = true ∧ State.reset.waveLo.wf = true ∧ State.reset.out.wf = true :=
  ⟨rfl, rfl, rfl⟩

/-- A waveform write keeps both parts in canonical form. -/
theorem State.writeWave_wf {s : State} (i : Nat) (hi : BitVec 16) (lo : Option (BitVec 8))
    (h : s.waveHi.wf = true ∧ s.waveLo.wf = true) :
    (s.writeWave i hi lo).waveHi.wf = true ∧ (s.writeWave i hi lo).waveLo.wf = true := by
  refine ⟨Memory.wf_write i hi h.1, ?_⟩
  cases lo with
  | none => exact h.2
  | some b => exact Memory.wf_write i b h.2

/-- An output write keeps the output memory in canonical form. -/
theorem Work.outWrite_wf (fmt : RealFmt) {w : Work} (y : RealVal) (h : w.out.wf = true) :
    (w.outWrite fmt y).out.wf = true := Memory.wf_write _ _ h

/-- Reset keeps the waveform and empties the output memory. -/
theorem State.resetCore_wf {s : State} (h : s.waveHi.wf = true ∧ s.waveLo.wf = true) :
    s.resetCore.waveHi.wf = true ∧ s.resetCore.waveLo.wf = true ∧ s.resetCore.out.wf = true := ⟨h.1, h.2, rfl⟩

/-- A raced write keeps both parts in canonical form. -/
theorem State.racedWave_wf {s : State} (i : Nat) (h : s.waveHi.wf = true ∧ s.waveLo.wf = true) :
    (s.racedWave i).waveHi.wf = true ∧ (s.racedWave i).waveLo.wf = true :=
  ⟨Memory.wf_write _ _ h.1, Memory.wf_write _ _ h.2⟩

/-- A binary32 build's pattern stands in bits 31..0. -/
theorem anyPattern_binary32_lt (v : BitVec 64) : (anyPattern .binary32 v).toNat < 2 ^ 32 := by
  have := (v.setWidth 32).isLt
  simp only [anyPattern, BitVec.toNat_setWidth]
  omega

/-- What an abandoned render leaves: the slots it had written hold values of the format, no other slot holds any. -/
theorem read_abandonedOut (fmt : RealFmt) (ctr n slot : Nat) :
    (abandonedOut fmt ctr n).read slot =
      if slot < n then some (anyPattern fmt (Config.freeSlot (ctr + slot))) else none := by
  induction n with
  | zero => simp [abandonedOut, Memory.read]
  | succ n ih =>
    rw [abandonedOut, Memory.read_write, ih]
    by_cases h : slot = n
    · subst h; simp
    · simp only [h, if_false]
      congr 1
      simp only [eq_iff_iff]; omega

theorem abandonedOut_wf (fmt : RealFmt) (ctr n : Nat) : (abandonedOut fmt ctr n).wf = true := by
  induction n with
  | zero => rfl
  | succ n ih => exact Memory.wf_write _ _ ih

theorem abandonedOut_below (fmt : RealFmt) (ctr : Nat) {n limit : Nat} (h : n ≤ limit) :
    (abandonedOut fmt ctr n).below limit = true := by
  induction n with
  | zero => rfl
  | succ n ih => exact Memory.below_write _ (ih (by omega)) (by omega)

end Sys2Proof.Machine
end

