-- ==== Sys2Proof/Laws/Phase.lean ====
section
/-! SUPPORT. What each phase operation gives, as numbers. -/

namespace Sys2Proof.Machine

open Config

theorem idx_lt (p : Phase) : idx p < 2 ^ 32 := by
  have := p.isLt
  simp only [idx, unitStep]
  omega

theorem idx_le_iff {p : Phase} {i : Nat} : idx p ≤ i ↔ p.toNat < (i + 1) * 2 ^ 32 := by
  simp only [idx, unitStep]
  omega

theorem incrPhase_eq_some {p d q : Phase} :
    incrPhase p d = some q ↔ p.toNat + d.toNat < 2 ^ 64 ∧ q.toNat = p.toNat + d.toNat := by
  simp only [incrPhase, phaseLimit]
  split
  · simp; omega
  · simp only [Option.some.injEq]
    constructor
    · rintro rfl
      rw [BitVec.toNat_add]
      omega
    · rintro ⟨h, hq⟩
      apply BitVec.eq_of_toNat_eq
      rw [BitVec.toNat_add]
      omega

theorem incrPhase_eq_none {p d : Phase} : incrPhase p d = none ↔ 2 ^ 64 ≤ p.toNat + d.toNat := by
  simp [incrPhase, phaseLimit]

theorem subInt_toNat {p : Phase} {span : Nat} (h : span * 2 ^ 32 ≤ p.toNat) :
    (subInt p span).toNat = p.toNat - span * 2 ^ 32 := by
  have := p.isLt
  simp only [subInt, unitStep, BitVec.toNat_sub, BitVec.toNat_ofNat]
  omega

theorem idx_subInt {p : Phase} {span : Nat} (h : span ≤ idx p) : idx (subInt p span) = idx p - span := by
  have h' : span * 2 ^ 32 ≤ p.toNat := by simp only [idx, unitStep] at h; omega
  simp only [idx, unitStep, subInt_toNat h']
  omega

theorem incrHalf_toNat (p : Phase) : (incrHalf p).toNat = (p.toNat + 2 ^ 31) % 2 ^ 64 := by
  simp only [incrHalf, half, BitVec.toNat_add, BitVec.toNat_ofNat]
  omega

theorem decrHalf_toNat (p : Phase) : (decrHalf p).toNat = (p.toNat + 2 ^ 64 - 2 ^ 31) % 2 ^ 64 := by
  have := p.isLt
  simp only [decrHalf, half, BitVec.toNat_sub, BitVec.toNat_ofNat]
  omega

/-- The count of wraps of a slot past `last` is the least that brings the index to `last` or below (R167). -/
theorem wrapCount_spec {i last span : Nat} (hs : 0 < span) (hi : last < i) :
    0 < wrapCount i last span ∧ i ≤ last + wrapCount i last span * span ∧
      last + (wrapCount i last span - 1) * span < i := by
  have h1 := Nat.div_add_mod (i - last + (span - 1)) span
  have h2 := Nat.mod_lt (i - last + (span - 1)) hs
  have hk : 0 < wrapCount i last span := Nat.div_pos (by omega) hs
  obtain ⟨k, hk'⟩ : ∃ k, wrapCount i last span = k + 1 := ⟨_, (Nat.succ_pred_eq_of_pos hk).symm⟩
  simp only [wrapCount] at hk' ⊢
  rw [hk'] at h1 ⊢
  rw [Nat.mul_add, Nat.mul_comm span k] at h1
  simp only [Nat.add_sub_cancel, Nat.add_mul]
  omega

end Sys2Proof.Machine
end

