-- ==== Sys2Proof/Laws/Render.lean ====
section
/-! SUPPORT. What a slot, the slot loop and a render can do, said once. -/

namespace Sys2Proof.Machine

/-- What makes the wraps of a latch sound: a span of at least one sample, no longer than the indices up to `last`. -/
def Latch.Sound (l : Latch) : Prop := 0 < l.span ∧ (l.loop = true → l.span ≤ l.last + 1)

theorem ValidMarkers.latch_sound {s : State} (h : ValidMarkers s) (k : Kernel) (loop ext : Bool) (incr : Phase) :
    (s.latch k loop ext incr).Sound := by
  obtain ⟨_, _, _, _, _⟩ := h
  constructor
  · simp; omega
  · intro hl
    simp only [State.latch_loop] at hl
    subst hl
    simp [State.regionLast]
    omega

theorem Work.boundary_eq_none {l : Latch} {w : Work} :
    w.boundary l = none ↔ l.last < idx w.ph ∧ l.loop = false := by
  simp only [Work.boundary]
  split
  · split <;> simp_all
  · simp_all

/-- Everything the boundary test can do: go on as it is, or wrap. -/
theorem Work.boundary_eq_some {l : Latch} {w w' : Work} :
    w.boundary l = some w' ↔
      (idx w.ph ≤ l.last ∧ w' = w) ∨ (l.last < idx w.ph ∧ l.loop = true ∧ w' = w.wrapped l) := by
  unfold Work.boundary
  by_cases h : l.last < idx w.ph
  · have hn : ¬ idx w.ph ≤ l.last := by omega
    by_cases hloop : l.loop = true
    · rw [if_pos h, if_pos hloop]
      constructor
      · intro e; cases e; exact .inr ⟨h, hloop, rfl⟩
      · rintro (⟨h', _⟩ | ⟨_, _, rfl⟩)
        · exact absurd h' hn
        · rfl
    · rw [if_pos h, if_neg hloop]
      constructor
      · intro e; cases e
      · rintro (⟨h', _⟩ | ⟨_, h', _⟩)
        · exact absurd h' hn
        · exact absurd h' hloop
  · rw [if_neg h]
    constructor
    · intro e; cases e; exact .inl ⟨by omega, rfl⟩
    · rintro (⟨_, rfl⟩ | ⟨h', _, _⟩)
      · rfl
      · exact absurd h' h

/-- What a slot's wraps leave: a whole number of spans taken off the phase, the index at `last` or below and less than
one span below it. -/
theorem Work.wrapped_spec {l : Latch} {w : Work} (hl : l.Sound) (hloop : l.loop = true) (h : l.last < idx w.ph) :
    ∃ c, 0 < c ∧ (w.wrapped l).ph.toNat + c * l.span * 2 ^ 32 = w.ph.toNat ∧
      idx (w.wrapped l).ph ≤ l.last ∧ l.last < idx (w.wrapped l).ph + l.span := by
  obtain ⟨hs, hsp⟩ := hl
  have hsp := hsp hloop
  obtain ⟨hc, h1, h2⟩ := wrapCount_spec hs h
  refine ⟨wrapCount (idx w.ph) l.last l.span, hc, ?_⟩
  have h3 : wrapCount (idx w.ph) l.last l.span * l.span =
      (wrapCount (idx w.ph) l.last l.span - 1) * l.span + l.span := by
    rw [← Nat.succ_mul]; congr 1; omega
  have hle : wrapCount (idx w.ph) l.last l.span * l.span ≤ idx w.ph := by omega
  have hidx := idx_subInt hle
  have hto : wrapCount (idx w.ph) l.last l.span * l.span * 2 ^ 32 ≤ w.ph.toNat := by
    have : idx w.ph * 2 ^ 32 ≤ w.ph.toNat := Nat.div_mul_le_self _ _
    exact le_trans (Nat.mul_le_mul_right _ hle) this
  rw [Work.wrapped_ph, hidx, subInt_toNat hto]
  omega

/-- After the boundary test a slot's index is at `last` or below. -/
theorem Work.boundary_idx {l : Latch} {w w' : Work} (hl : l.Sound) (h : w.boundary l = some w') :
    idx w'.ph ≤ l.last := by
  rcases Work.boundary_eq_some.1 h with ⟨h, rfl⟩ | ⟨h', hloop, rfl⟩
  · exact h
  · obtain ⟨_, _, _, h, _⟩ := Work.wrapped_spec hl hloop h'
    exact h

/-- A property of the working state that the boundary test and the writing of a slot keep holds where the slot loop
exits. -/
theorem State.slotLoop_done {s : State} {l : Latch} {P : Work → Prop} {left : Nat} {w e : Work} (hl : l.Sound)
    (hwrap : ∀ w, P w → l.last < idx w.ph → l.loop = true → P (w.wrapped l))
    (hslot : ∀ w y ph, P w → idx w.ph ≤ l.last → s.slotValue l w = .ok y → incrPhase w.ph l.incr = some ph →
      P { w.outWrite s.hw.fmt y with ph := ph })
    (hw : P w) (h : s.slotLoop l left w = .done e) : P e := by
  have hb : ∀ w w', P w → w.boundary l = some w' → P w' := by
    intro w w' hw h
    rcases Work.boundary_eq_some.1 h with ⟨_, rfl⟩ | ⟨hi, hloop, rfl⟩
    · exact hw
    · exact hwrap w hw hi hloop
  induction left generalizing w with
  | zero =>
    simp only [State.slotLoop] at h
    split at h
    · cases h; exact hw
    · cases h; exact hb _ _ hw ‹_›
  | succ left ih =>
    simp only [State.slotLoop] at h
    split at h
    · cases h; exact hw
    · rename_i w' hbd
      split at h
      · cases h
      · split at h
        · cases h
        · exact ih (hslot _ _ _ (hb _ _ hw hbd) (Work.boundary_idx hl hbd) ‹_› ‹_›) h

/-- Where the slot loop raises a fault, it raises a fetch's or INCR's, in a working state with the property its passes
keep. -/
theorem State.slotLoop_raised {s : State} {l : Latch} {P : Work → Prop} {left : Nat} {w e : Work} {f : FaultInfo}
    (hl : l.Sound)
    (hwrap : ∀ w, P w → l.last < idx w.ph → l.loop = true → P (w.wrapped l))
    (hslot : ∀ w y ph, P w → idx w.ph ≤ l.last → s.slotValue l w = .ok y → incrPhase w.ph l.incr = some ph →
      P { w.outWrite s.hw.fmt y with ph := ph })
    (hw : P w) (h : s.slotLoop l left w = .raised f e) :
    ∃ w₁, P w₁ ∧ idx w₁.ph ≤ l.last ∧
      ((s.slotValue l w₁ = .error f ∧ e = w₁) ∨
        ∃ y, s.slotValue l w₁ = .ok y ∧ incrPhase w₁.ph l.incr = none ∧
          f = .phaseOverflow w₁.ph l.incr (w₁.n + 1) ∧ e = w₁.outWrite s.hw.fmt y) := by
  have hb : ∀ w w', P w → w.boundary l = some w' → P w' := by
    intro w w' hw h
    rcases Work.boundary_eq_some.1 h with ⟨_, rfl⟩ | ⟨hi, hloop, rfl⟩
    · exact hw
    · exact hwrap w hw hi hloop
  induction left generalizing w with
  | zero =>
    simp only [State.slotLoop] at h
    split at h <;> cases h
  | succ left ih =>
    simp only [State.slotLoop] at h
    split at h
    · cases h
    · rename_i w' hbd
      split at h
      · cases h; exact ⟨_, hb _ _ hw hbd, Work.boundary_idx hl hbd, .inl ⟨‹_›, rfl⟩⟩
      · split at h
        · cases h; exact ⟨_, hb _ _ hw hbd, Work.boundary_idx hl hbd, .inr ⟨_, ‹_›, ‹_›, rfl, rfl⟩⟩
        · exact ih (hslot _ _ _ (hb _ _ hw hbd) (Work.boundary_idx hl hbd) ‹_› ‹_›) h

/-- Where the slot loop exits (R164): the block full, the index at `last` or below; or a non-looping render past `last`. -/
theorem State.slotLoop_exit {s : State} {l : Latch} {left : Nat} {w e : Work} (hl : l.Sound)
    (h : s.slotLoop l left w = .done e) :
    (idx e.ph ≤ l.last ∧ e.n = w.n + left) ∨ (l.loop = false ∧ l.last < idx e.ph ∧ e.n ≤ w.n + left) := by
  induction left generalizing w with
  | zero =>
    simp only [State.slotLoop] at h
    split at h
    · rename_i hbd
      cases h
      obtain ⟨h1, h2⟩ := Work.boundary_eq_none.1 hbd
      exact .inr ⟨h2, h1, by omega⟩
    · rename_i hbd
      cases h
      refine .inl ⟨Work.boundary_idx hl hbd, ?_⟩
      rcases Work.boundary_eq_some.1 hbd with ⟨_, rfl⟩ | ⟨_, _, rfl⟩ <;> simp
  | succ left ih =>
    simp only [State.slotLoop] at h
    split at h
    · rename_i hbd
      cases h
      obtain ⟨h1, h2⟩ := Work.boundary_eq_none.1 hbd
      exact .inr ⟨h2, h1, by omega⟩
    · rename_i w' hbd
      have hn : w'.n = w.n := by
        rcases Work.boundary_eq_some.1 hbd with ⟨_, rfl⟩ | ⟨_, _, rfl⟩ <;> simp
      split at h
      · cases h
      · split at h
        · cases h
        · rcases ih h with ⟨h1, h2⟩ | ⟨h1, h2, h3⟩
          · simp only [Work.outWrite_n, hn] at h2
            exact .inl ⟨h1, by omega⟩
          · simp only [Work.outWrite_n, hn] at h3
            exact .inr ⟨h1, h2, by omega⟩

/-- Everything a render can answer. -/
theorem render_cases (k : Kernel) (loop ext : Bool) (s : State) :
    (¬ ValidMarkers s ∧ render k loop ext s = raise s.markersFault s.setBusy) ∨
    (ValidMarkers s ∧ setFloat s.stepBits = none ∧
      render k loop ext s = raise (.stepDomain s.stepBits) s.setBusy) ∨
    ∃ incr, ValidMarkers s ∧ setFloat s.stepBits = some incr ∧
      ((∃ w, s.slotLoop (s.latch k loop ext incr) s.hw.blockCap (s.startWork k) = .done w ∧
          render k loop ext s = .next (s.renderEnd k w)) ∨
        ∃ f w, s.slotLoop (s.latch k loop ext incr) s.hw.blockCap (s.startWork k) = .raised f w ∧
          render k loop ext s = raise f (s.setBusy.withOut w)) := by
  rw [← State.markersOk_iff]
  unfold render
  split
  · right
    split
    · exact .inl ⟨‹_›, ‹_›, rfl⟩
    · refine .inr ⟨_, ‹_›, ‹_›, ?_⟩
      split
      · exact .inl ⟨_, ‹_›, rfl⟩
      · exact .inr ⟨_, _, ‹_›, rfl⟩
  · exact .inl ⟨‹_›, rfl⟩

/-- Where a render goes on: the markers valid, the step converted, the slot loop run to its exit. -/
theorem render_eq_next {k : Kernel} {loop ext : Bool} {s t : State} (h : render k loop ext s = .next t) :
    ∃ incr w, ValidMarkers s ∧ setFloat s.stepBits = some incr ∧
      s.slotLoop (s.latch k loop ext incr) s.hw.blockCap (s.startWork k) = .done w ∧ t = s.renderEnd k w := by
  rcases render_cases k loop ext s with ⟨_, h'⟩ | ⟨_, _, h'⟩ | ⟨incr, hv, hi, ⟨w, hw, h'⟩ | ⟨f, w, _, h'⟩⟩
  · rw [h'] at h; cases h
  · rw [h'] at h; cases h
  · rw [h'] at h; cases h; exact ⟨incr, w, hv, hi, hw, rfl⟩
  · rw [h'] at h; cases h

/-- A render of an instruction is the shared operation. -/
theorem exec_eq_render {i : Instr} {k : Kernel} {loop ext : Bool} (h : i.renderOf = some (k, loop, ext)) (s : State) :
    exec i s = render k loop ext s := by
  cases i <;> simp_all [Instr.renderOf, exec, execRenderNearest, execRenderLinear, execRenderCubic, execRenderSinc7,
    execRenderSilence]

/-- What exec of any instruction is: NOP's meaning or a render. -/
theorem exec_cases (i : Instr) (s : State) :
    (i = .nop ∧ exec i s = .next s) ∨
      ∃ k loop ext, i.renderOf = some (k, loop, ext) ∧ exec i s = render k loop ext s := by
  cases i with
  | nop => exact .inl ⟨rfl, rfl⟩
  | renderNearest loop ext => exact .inr ⟨_, _, _, rfl, rfl⟩
  | renderLinear loop ext => exact .inr ⟨_, _, _, rfl, rfl⟩
  | renderCubic loop ext => exact .inr ⟨_, _, _, rfl, rfl⟩
  | renderSinc7 loop ext => exact .inr ⟨_, _, _, rfl, rfl⟩
  | renderSilence q loop ext => exact .inr ⟨_, _, _, rfl, rfl⟩

end Sys2Proof.Machine
end

