-- ==== Sys2Proof/Laws/HostPort.lean ====
section
/-! SUPPORT. What a host operation and a step can do, said once. -/

namespace Sys2Proof.Machine

/-- What a write of a plain register, or of VFLAGS, leaves alone: everything but the eight register words and the
latch. -/
structure RegisterWrite (s t : State) : Prop where
  hw : t.hw = s.hw
  busy : t.busy = s.busy
  short : t.short = s.short
  count : t.count = s.count
  waveHi : t.waveHi = s.waveHi
  waveLo : t.waveLo = s.waveLo
  out : t.out = s.out
  fault : t.fault = s.fault
  pending : t.pending = s.pending
  answer : t.answer = s.answer
  freeCtr : t.freeCtr = s.freeCtr

/-- Everything a register write that goes on can be: a command issued, or a register written (or the write ignored). -/
theorem writeReg_next {r : Reg} {d : Word} {s t : State} (h : writeReg r d s = .next t) :
    (r = .cmd ∧ ∃ i, decode d = .ok i ∧ exec i s = .next t) ∨
      (r ≠ .cmd ∧ RegisterWrite s t ∧ (r ≠ .vflags → t.hasLooped = s.hasLooped)) := by
  cases r <;> simp only [writeReg] at h
  case cmd =>
    left
    refine ⟨rfl, ?_⟩
    unfold issue at h
    split at h
    · cases h
    · exact ⟨_, ‹_›, h⟩
  case vflags =>
    right
    split at h
    · cases h
    · cases h; exact ⟨by decide, ⟨rfl, rfl, rfl, rfl, rfl, rfl, rfl, rfl, rfl, rfl, rfl⟩, fun h => absurd rfl h⟩
  all_goals
    right
    cases h
    exact ⟨by decide, ⟨rfl, rfl, rfl, rfl, rfl, rfl, rfl, rfl, rfl, rfl, rfl⟩, fun _ => rfl⟩

/-- Where a render into which something falls goes on: cut at that moment, or ended before it. -/
theorem renderUntil_next {k : Kernel} {loop ext : Bool} {after : Nat} {s t : State}
    {cut : Work → Host.Outcome State Fault Refusal} {ended : State → Host.Outcome State Fault Refusal}
    (h : renderUntil k loop ext after s cut ended = .next t) :
    ∃ incr w, ValidMarkers s ∧ setFloat s.stepBits = some incr ∧
      s.slotLoop (s.latch k loop ext incr) (min after s.hw.blockCap) (s.startWork k) = .done w ∧
      ((w.n = after ∧ cut w = .next t) ∨ (w.n ≠ after ∧ ended (s.renderEnd k w) = .next t)) := by
  unfold renderUntil at h
  split at h
  · split at h
    · cases h
    · split at h
      · split at h
        · exact ⟨_, _, s.markersOk_iff.1 ‹_›, ‹_›, ‹_›, .inl ⟨‹_›, h⟩⟩
        · exact ⟨_, _, s.markersOk_iff.1 ‹_›, ‹_›, ‹_›, .inr ⟨‹_›, h⟩⟩
      · cases h
  · cases h

/-- A waveform write goes on where the entry exists. -/
theorem hostWave_next {index : Nat} {hi : BitVec 16} {lo : Option (BitVec 8)} {s t : State}
    (h : hostWave index hi lo s = .next t) : index < s.hw.waveDepth ∧ t = s.writeWave index hi lo := by
  unfold hostWave at h
  split at h
  · cases h; exact ⟨‹_›, rfl⟩
  · cases h

/-- Where a raced render goes on: it has ended before the other agent's write. -/
theorem renderRaced_eq_next {k : Kernel} {loop ext : Bool} {after index : Nat} {hi : BitVec 16}
    {lo : Option (BitVec 8)} {s t : State} (h : renderRaced k loop ext after index hi lo s = .next t) :
    ∃ incr w, ValidMarkers s ∧ setFloat s.stepBits = some incr ∧
      s.slotLoop (s.latch k loop ext incr) (min after s.hw.blockCap) (s.startWork k) = .done w ∧ w.n ≠ after ∧
      index < s.hw.waveDepth ∧ t = (s.renderEnd k w).writeWave index hi lo := by
  obtain ⟨incr, w, hv, hi, hl, ⟨_, hc⟩ | ⟨hn, he⟩⟩ := renderUntil_next h
  · split at hc <;> cases hc
  · obtain ⟨hlt, rfl⟩ := hostWave_next he
    exact ⟨incr, w, hv, hi, hl, hn, hlt, rfl⟩

/-- A render into which a reset falls leaves a state after reset: the render abandoned, or ended before. -/
theorem renderReset_next {k : Kernel} {loop ext : Bool} {after : Nat} {s t : State}
    (h : renderReset k loop ext after s = .next t) :
    (∃ incr w, ValidMarkers s ∧ setFloat s.stepBits = some incr ∧
      s.slotLoop (s.latch k loop ext incr) (min after s.hw.blockCap) (s.startWork k) = .done w ∧ w.n = after ∧
      t = s.abandon w) ∨
    ∃ w, t = (s.renderEnd k w).resetCore := by
  obtain ⟨incr, w, hv, hi, hl, ⟨hn, hc⟩ | ⟨_, he⟩⟩ := renderUntil_next h
  · cases hc; exact .inl ⟨incr, w, hv, hi, hl, hn, rfl⟩
  · cases he; exact .inr ⟨w, rfl⟩

/-- Everything a host operation that goes on can do. -/
theorem hostStep_next {op : HostOp} {s t : State} (h : hostStep op s = .next t) :
    (∃ offset d i, op = .wr offset d ∧ Reg.ofOffset offset = some .cmd ∧ decode d = .ok i ∧ exec i s = .next t) ∨
    (∃ offset d r, op = .wr offset d ∧ Reg.ofOffset offset = some r ∧ r ≠ .cmd ∧ RegisterWrite s t ∧
      (r ≠ .vflags → t.hasLooped = s.hasLooped)) ∨
    (∃ offset r, op = .rd offset ∧ Reg.ofOffset offset = some r ∧
      t = { s with answer := some (.reg (s.readReg r)) }) ∨
    (∃ slot v, op = .rdOut slot ∧ s.out.read slot = some v ∧ t = { s with answer := some (.out v) }) ∨
    (∃ index hi lo, (op = .wave index hi lo ∨ ∃ word after, op = .issueRaced word after index hi lo) ∧
      index < s.hw.waveDepth ∧ t = s.writeWave index hi lo) ∨
    (∃ word after index hi lo i k loop ext, op = .issueRaced word after index hi lo ∧
      decode word = .ok i ∧ i.renderOf = some (k, loop, ext) ∧
      renderRaced k loop ext after index hi lo s = .next t) ∨
    ((op = .reset ∨ ∃ word after, op = .issueReset word after) ∧ t = s.resetCore) ∨
    (∃ word after i k loop ext, op = .issueReset word after ∧ decode word = .ok i ∧
      i.renderOf = some (k, loop, ext) ∧ renderReset k loop ext after s = .next t) := by
  cases op with
  | wr offset d =>
    simp only [hostStep, hostWrite] at h
    split at h
    · cases h
    · rename_i r hr
      rcases writeReg_next h with ⟨rfl, i, hd, he⟩ | ⟨hne, hw⟩
      · exact .inl ⟨_, _, _, rfl, hr, hd, he⟩
      · exact .inr (.inl ⟨_, _, _, rfl, hr, hne, hw⟩)
  | rd offset =>
    simp only [hostStep, hostRead] at h
    split at h
    · cases h
    · cases h; exact .inr (.inr (.inl ⟨_, _, rfl, ‹_›, rfl⟩))
  | wave index hi lo =>
    obtain ⟨hlt, rfl⟩ := hostWave_next h
    exact .inr (.inr (.inr (.inr (.inl ⟨_, _, _, .inl rfl, hlt, rfl⟩))))
  | rdOut slot =>
    simp only [hostStep, hostReadOut] at h
    split at h
    · split at h
      · cases h
      · cases h; exact .inr (.inr (.inr (.inl ⟨_, _, rfl, ‹_›, rfl⟩)))
    · cases h
  | issueRaced word after index hi lo =>
    simp only [hostStep, hostIssueRaced] at h
    split at h
    · cases h
    · split at h
      · obtain ⟨hlt, rfl⟩ := hostWave_next h
        exact .inr (.inr (.inr (.inr (.inl ⟨_, _, _, .inr ⟨_, _, rfl⟩, hlt, rfl⟩))))
      · exact .inr (.inr (.inr (.inr (.inr (.inl ⟨_, _, _, _, _, _, _, _, _, rfl, ‹_›, ‹_›, h⟩)))))
  | reset =>
    simp only [hostStep] at h
    cases h
    exact .inr (.inr (.inr (.inr (.inr (.inr (.inl ⟨.inl rfl, rfl⟩))))))
  | issueReset word after =>
    simp only [hostStep, hostIssueReset] at h
    split at h
    · cases h
    · split at h
      · cases h
        exact .inr (.inr (.inr (.inr (.inr (.inr (.inl ⟨.inr ⟨_, _, rfl⟩, rfl⟩))))))
      · exact .inr (.inr (.inr (.inr (.inr (.inr (.inr ⟨_, _, _, _, _, _, rfl, ‹_›, ‹_›, h⟩))))))

/-- Everything a step that goes on can do: reset out of the fault state, idle, or perform the host's next operation. -/
theorem step_next {s t : State} (h : step s = .next t) :
    (∃ f rest, s.fault = some f ∧ s.pending = .reset :: rest ∧ t = { s with pending := rest }.resetCore) ∨
    (s.fault = none ∧ s.pending = [] ∧ t = s) ∨
    ∃ op rest, s.fault = none ∧ s.pending = op :: rest ∧ hostStep op { s with pending := rest } = .next t := by
  unfold step at h
  split at h
  · rename_i f hf
    unfold faultedStep at h
    split at h
    · cases h; exact .inl ⟨_, _, hf, ‹_›, rfl⟩
    · cases h
  · rename_i hf
    unfold hostTurn at h
    split at h
    · cases h; exact .inr (.inl ⟨hf, ‹_›, rfl⟩)
    · exact .inr (.inr ⟨_, _, hf, ‹_›, h⟩)

/-- A register's offset is where the register is. -/
theorem Reg.ofOffset_offset (r : Reg) : Reg.ofOffset r.offset = some r := by
  cases r <;> rfl

/-- Only the thirteen offsets reach a register (R20, R80). -/
theorem Reg.offset_of_ofOffset {offset : Nat} {r : Reg} (h : Reg.ofOffset offset = some r) : r.offset = offset := by
  have := List.find?_some h
  simpa using this

end Sys2Proof.Machine
end

