-- ==== Sys2Proof/Laws/PerInstr.lean ====
section
/-! SUPPORT. The lemma families that hold of every instruction, one lemma a constructor. -/

/-- The word an instruction is encoded to lies in its own row of the opcode table (R74). -/
def Sys2Proof.Laws.EncodedInRow.Statement (i : Sys2Proof.Instr) : Prop :=
  (Sys2Proof.opcodeTable.filter fun r => r.matches (Sys2Proof.encode i)).map Sys2Proof.OpcodeRow.mnemonic =
    [i.mnemonic]

namespace Sys2Proof.Laws.EncodedInRow

theorem nop : Statement .nop := by unfold Statement; decide

theorem renderNearest (loop ext : Bool) : Statement (.renderNearest loop ext) := by
  unfold Statement; revert loop ext; decide

theorem renderLinear (loop ext : Bool) : Statement (.renderLinear loop ext) := by
  unfold Statement; revert loop ext; decide

theorem renderCubic (loop ext : Bool) : Statement (.renderCubic loop ext) := by
  unfold Statement; revert loop ext; decide

theorem renderSinc7 (loop ext : Bool) : Statement (.renderSinc7 loop ext) := by
  unfold Statement; revert loop ext; decide

theorem renderSilence (quality : BitVec 2) (loop ext : Bool) : Statement (.renderSilence quality loop ext) := by
  unfold Statement; revert quality loop ext; decide

end Sys2Proof.Laws.EncodedInRow
end

