-- ==== Sys2Proof/Laws/Real.lean ====
section
/-! SUPPORT. REAL results have the format's form, and their patterns the format's width. -/

namespace Sys2Proof.Machine

theorem prec_pos (fmt : RealFmt) : 0 < prec fmt := by cases fmt <;> decide

theorem minExp_lt_maxExp (fmt : RealFmt) : minExp fmt < maxExp fmt := by cases fmt <;> decide

theorem two_pow_prec (fmt : RealFmt) : 2 ^ prec fmt = 2 * 2 ^ (prec fmt - 1) := by
  rw [← Nat.pow_succ', Nat.succ_eq_add_one, Nat.sub_add_cancel (prec_pos fmt)]

/-- A positive number lies between the powers of two its length names. -/
theorem bitLength_spec {m : Nat} (h : m ≠ 0) :
    0 < bitLength m ∧ 2 ^ (bitLength m - 1) ≤ m ∧ m < 2 ^ bitLength m := by
  simp only [bitLength, h, if_false, Nat.add_sub_cancel]
  exact ⟨Nat.succ_pos _, Nat.log2_self_le h, Nat.lt_log2_self⟩

theorem nearestEven_bounds (m d : Nat) : m / 2 ^ d ≤ nearestEven m d ∧ nearestEven m d ≤ m / 2 ^ d + 1 := by
  unfold nearestEven
  split <;> omega

/-- In its target units a result has at most 2^prec of them, and at least half of that unless it is subnormal. -/
theorem inUnits_target (fmt : RealFmt) {m : Nat} (e : Int) (h : m ≠ 0) :
    inUnits m e (targetExp fmt m e) ≤ 2 ^ prec fmt ∧
      (targetExp fmt m e = minExp fmt ∨ 2 ^ (prec fmt - 1) ≤ inUnits m e (targetExp fmt m e)) := by
  obtain ⟨hL, hlo, hhi⟩ := bitLength_spec h
  have hp := prec_pos fmt
  generalize hLd : bitLength m = L at *
  generalize hpd : prec fmt = p at *
  have ht : targetExp fmt m e = e + L - p ∨ (targetExp fmt m e = minExp fmt ∧ e + L - p < minExp fmt) := by
    simp only [targetExp, hLd, hpd]; omega
  have htm : minExp fmt ≤ targetExp fmt m e := by simp only [targetExp]; omega
  generalize hT : targetExp fmt m e = t at *
  unfold inUnits
  split
  · rename_i hte
    rcases ht with ht | ⟨ht, hlt⟩
    · have hn : (e - t).toNat = p - L := by omega
      have hLp : L ≤ p := by omega
      rw [hn]
      have e1 : 2 ^ L * 2 ^ (p - L) = 2 ^ p := by rw [← Nat.pow_add]; congr 1; omega
      have e2 : 2 ^ (L - 1) * 2 ^ (p - L) = 2 ^ (p - 1) := by rw [← Nat.pow_add]; congr 1; omega
      have h1 := Nat.mul_le_mul_right (2 ^ (p - L)) hhi.le
      have h2 := Nat.mul_le_mul_right (2 ^ (p - L)) hlo
      exact ⟨by omega, .inr (by omega)⟩
    · refine ⟨?_, .inl ht⟩
      have e1 : 2 ^ L * 2 ^ (e - t).toNat ≤ 2 ^ p := by
        rw [← Nat.pow_add]; exact Nat.pow_le_pow_right (by decide) (by omega)
      exact le_trans (Nat.mul_le_mul_right _ hhi.le) e1
  · rename_i hte
    obtain ⟨b1, b2⟩ := nearestEven_bounds m (t - e).toNat
    have hpos : 0 < 2 ^ (t - e).toNat := Nat.two_pow_pos _
    have hdiv : m / 2 ^ (t - e).toNat < 2 ^ p := by
      rw [Nat.div_lt_iff_lt_mul hpos, ← Nat.pow_add]
      exact lt_of_lt_of_le hhi (Nat.pow_le_pow_right (by decide) (by omega))
    refine ⟨by omega, ?_⟩
    rcases ht with ht | ⟨ht, _⟩
    · right
      have hle : 2 ^ (p - 1) ≤ m / 2 ^ (t - e).toNat := by
        rw [Nat.le_div_iff_mul_le hpos, ← Nat.pow_add]
        refine le_trans (Nat.pow_le_pow_right (by decide) ?_) hlo
        omega
      omega
    · exact .inl ht

theorem packRange_canonical (fmt : RealFmt) (neg : Bool) {q : Nat} {e : Int} (hq : q ≤ 2 ^ prec fmt)
    (he : minExp fmt ≤ e) (h : e = minExp fmt ∨ 2 ^ (prec fmt - 1) ≤ q) : (packRange fmt neg q e).canonical fmt := by
  have h2 := two_pow_prec fmt
  have hpos := Nat.two_pow_pos (prec fmt - 1)
  unfold packRange
  split
  · split
    · trivial
    · simp only [RealVal.canonical]; omega
  · split
    · trivial
    · simp only [RealVal.canonical]; omega

theorem zero_canonical (fmt : RealFmt) (neg : Bool) : (RealVal.zero fmt neg).canonical fmt := by
  have := minExp_lt_maxExp fmt
  simp only [RealVal.zero, RealVal.canonical]
  exact ⟨Nat.two_pow_pos _, le_refl _, by omega, by simp⟩

/-- A rounded result has the format's form. -/
theorem roundReal_canonical (fmt : RealFmt) (neg : Bool) (m : Nat) (e : Int) :
    (roundReal fmt neg m e).canonical fmt := by
  unfold roundReal
  split
  · exact zero_canonical fmt neg
  · rename_i h
    obtain ⟨h1, h2⟩ := inUnits_target fmt e h
    exact packRange_canonical fmt neg h1 (by simp only [targetExp]; omega) h2

theorem realOfInt_canonical (fmt : RealFmt) (i : Int) : (realOfInt fmt i).canonical fmt :=
  roundReal_canonical _ _ _ _

theorem mulReal_canonical (fmt : RealFmt) (a b : RealVal) : (mulReal fmt a b).canonical fmt := by
  cases a <;> cases b <;> simp only [mulReal] <;> (try split) <;>
    first | trivial | exact roundReal_canonical _ _ _ _

theorem addReal_canonical (fmt : RealFmt) (a b : RealVal) (ha : a.canonical fmt) (hb : b.canonical fmt) :
    (addReal fmt a b).canonical fmt := by
  cases a <;> cases b <;> simp only [addReal] <;> (try split) <;>
    first | trivial | exact zero_canonical _ _ | exact roundReal_canonical _ _ _ _

theorem foldl_addReal_canonical (fmt : RealFmt) (ps : List RealVal) (p : RealVal) (hp : p.canonical fmt)
    (h : ∀ q ∈ ps, RealVal.canonical fmt q) : (ps.foldl (addReal fmt) p).canonical fmt := by
  induction ps generalizing p with
  | nil => exact hp
  | cons q rest ih =>
    simp only [List.foldl_cons]
    exact ih _ (addReal_canonical fmt p q hp (h q (by simp))) fun r hr => h r (by simp [hr])

theorem sumLanes_canonical (fmt : RealFmt) (ps : List RealVal) (h : ∀ q ∈ ps, RealVal.canonical fmt q) :
    (sumLanes fmt ps).canonical fmt := by
  cases ps with
  | nil => exact zero_canonical fmt false
  | cons p rest => exact foldl_addReal_canonical fmt rest p (h p (by simp)) fun q hq => h q (by simp [hq])

theorem products_canonical (fmt : RealFmt) (c tap : List RealVal) :
    ∀ q ∈ products fmt c tap, RealVal.canonical fmt q := by
  intro q hq
  unfold products at hq
  rw [List.zipWith_eq_zipWith_take_min, ← List.map_uncurry_zip_eq_zipWith] at hq
  obtain ⟨⟨a, b⟩, _, rfl⟩ := List.mem_map.1 hq
  exact mulReal_canonical fmt a b

/-- The value of a sample has the format's form (R146 to R150). -/
theorem sampleValue_canonical (hw : Hardware) (k : Kernel) (ph : Phase) (vs : List Int) :
    (sampleValue hw k ph vs).canonical hw.fmt := by
  cases k <;> simp only [sampleValue]
  · refine sumLanes_canonical _ _ fun q hq => ?_
    obtain ⟨v, _, rfl⟩ := List.mem_map.1 hq
    exact realOfInt_canonical _ _
  · exact sumLanes_canonical _ _ (products_canonical _ _ _)
  · exact sumLanes_canonical _ _ (products_canonical _ _ _)
  · exact sumLanes_canonical _ _ (products_canonical _ _ _)
  · exact zero_canonical _ _

/-- A binary32 result's pattern stands in bits 31..0 (R53). -/
theorem bitsOfReal_binary32_lt (free : BitVec 64) {y : RealVal} (h : y.canonical .binary32) :
    (bitsOfReal .binary32 free y).toNat < 2 ^ 32 := by
  have key : ∀ (neg : Bool) (field fr : Nat), field ≤ 255 → fr < 2 ^ 23 →
      (realFields .binary32 neg field fr).toNat < 2 ^ 32 := by
    intro neg field fr h1 h2
    simp only [realFields, BitVec.toNat_ofNat, prec, expBits]
    cases neg <;> simp <;> omega
  cases y with
  | nan =>
    simp only [bitsOfReal, nanBits]
    refine key _ _ _ (by decide) ?_
    split
    · decide
    · exact Nat.mod_lt _ (by decide)
  | inf neg => exact key _ _ _ (by decide) (by decide)
  | fin neg m e =>
    simp only [RealVal.canonical, prec, minExp, maxExp] at h
    simp only [bitsOfReal]
    by_cases hm : m < 2 ^ (prec .binary32 - 1)
    · rw [if_pos hm]
      exact key _ _ _ (by decide) (by simp only [prec] at hm; omega)
    · rw [if_neg hm]
      exact key _ _ _ (by simp only [minExp]; omega) (by simp only [prec] at hm ⊢; omega)

end Sys2Proof.Machine
end

