-- ==== Sys2Proof/Tests/Slice0.lean ====
section
/-! SUPPORT. The model's own tests, each one step on a small state, their results from spec/ (named in each docstring);
and for each statement with hypotheses a state that meets them. -/

namespace Sys2Proof.Tests

open Sys2Proof Sys2Proof.Machine

/-! ## Small states -/

/-- Coefficients that show the taps (95 section 0): TEST_LIN in rows 0, 1 and 128, HEX_CUB, OCT_SINC; binary32. -/
def tapRom : Rom where
  lin := ((Vector.replicate 256 #v[0x3F800000#64, 0#64]).set 1 #v[0x3F7F0000#64, 0x3B800000#64]).set 128
    #v[0x3F000000#64, 0x3F000000#64]
  cub := Vector.replicate 256 #v[0x3F800000#64, 0x41800000#64, 0x43800000#64, 0x45800000#64]
  sinc := Vector.replicate 256 #v[0x3F800000#64, 0x41000000#64, 0x42800000#64, 0x44000000#64, 0x45800000#64,
    0x47000000#64, 0x48800000#64]

/-- Unit weights (95 section 0): row 0 of TEST_LIN, UNIT_CUB, UNIT_SINC; binary32. -/
def unitRom : Rom where
  lin := Vector.replicate 256 #v[0x3F800000#64, 0#64]
  cub := Vector.replicate 256 #v[0#64, 0x3F800000#64, 0#64, 0#64]
  sinc := Vector.replicate 256 #v[0#64, 0#64, 0#64, 0x3F800000#64, 0#64, 0#64, 0#64]

/-- Entries 0, 1, ... with the values of a list. -/
def entries {α : Type} (start : Nat) : List α → Memory α
  | [] => []
  | v :: rest => (start, v) :: entries (start + 1) rest

/-- The state after reset of a build with BLOCK_CAP `cap` and ROM `rom`, a waveform loaded, the markers and a step of 1.0
written. -/
def small (cap : Nat) (rom : Rom) (wave : List (BitVec 16)) (start end_ loopstart loopend : Word) : State :=
  { State.reset with
    hw := ⟨cap, wave.length, .binary32, rom⟩
    waveHi := entries 0 wave
    waveLo := entries 0 (wave.map fun _ => 0)
    start := start
    end_ := end_
    loopstart := loopstart
    loopend := loopend
    stepHi := 0x3FF00000 }

/-- The waveform of the source's scenario, 0, 10, .. 90, with its markers (95 section 1.1). -/
def scenario (cap : Nat) : State := small cap tapRom [0, 10, 20, 30, 40, 50, 60, 70, 80, 90] 0 9 2 8

/-- The state of vector B4.1 (95). -/
def cubicState : State := small 1 tapRom [15, 1, 2, 10, 11, 12, 6, 7] 0 7 1 6

/-- The state of vector B4.2 (95). -/
def sincState : State := small 1 tapRom [7, 1, 2, 3, 0, 1, 4, 5, 6, 2, 3] 0 10 2 9

/-- Slot 0 as the host would read it, with COUNT, SHORT, PHASE and HAS_LOOPED, where a render goes on. -/
def seen : Host.Outcome State Fault Refusal → Option (Option RealBits × Word × Bool × Phase × Bool)
  | .next t => some (t.out.read 0, t.count, t.short, t.phase, t.hasLooped)
  | .fault _ => none
  | .refused _ => none

/-- The fault recorded, with what slot 0 and COUNT were left as, where the core stops in the fault state. -/
def stopped : Host.Outcome State Fault Refusal → Option (FaultInfo × Option RealBits × Word)
  | .next _ => none
  | .fault (.recorded f left) => some (f, left.out.read 0, left.count)
  | .fault _ => none
  | .refused _ => none

/-- The port's answer, where an operation goes on. -/
def answered : Host.Outcome State Fault Refusal → Option Answer
  | .next t => t.answer
  | .fault _ => none
  | .refused _ => none

/-- A few steps. -/
def runs (k : Nat) (s : State) : Host.Outcome State Fault Refusal := Host.Core.run core k s

/-- Whether the machine goes on to a state with a property. -/
def goesOn (p : State → Bool) : Host.Outcome State Fault Refusal → Bool
  | .next t => p t
  | .fault _ => false
  | .refused _ => false

theorem exists_next {p : State → Bool} {o : Host.Outcome State Fault Refusal} (h : goesOn p o = true) :
    ∃ t, o = .next t ∧ p t = true := by
  cases o with
  | next t => exact ⟨t, rfl, h⟩
  | fault _ => cases h
  | refused _ => cases h

/-! ## Well-formedness: a build that fails each check is refused -/

theorem test_wellFormed : (scenario 64).hw.wellFormed = true := by decide +kernel

theorem test_illFormed_blockCap_zero : (scenario 0).hw.wellFormed = false := by decide +kernel

theorem test_illFormed_blockCap_too_wide : (scenario (2 ^ 32)).hw.wellFormed = false := by decide +kernel

theorem test_illFormed_waveDepth_zero : (small 1 unitRom [] 0 0 0 0).hw.wellFormed = false := by decide +kernel

theorem test_illFormed_waveDepth_too_deep :
    Hardware.wellFormed ⟨1, 2 ^ 32 + 1, .binary32, unitRom⟩ = false := by decide +kernel

/-- An infinity in the ROM, in each table. -/
theorem test_illFormed_rom :
    Hardware.wellFormed ⟨1, 1, .binary32, { unitRom with lin := Vector.replicate 256 #v[0x7F800000#64, 0#64] }⟩ = false ∧
    Hardware.wellFormed ⟨1, 1, .binary32,
      { unitRom with cub := Vector.replicate 256 #v[0#64, 0x7F800000#64, 0#64, 0#64] }⟩ = false ∧
    Hardware.wellFormed ⟨1, 1, .binary32,
      { unitRom with sinc := Vector.replicate 256 #v[0#64, 0#64, 0#64, 0xFF800001#64, 0#64, 0#64, 0#64] }⟩ = false := by
  decide +kernel

/-- A pattern above REAL_FMT's width, and the all-ones exponent of binary64. -/
theorem test_illFormed_pattern :
    finitePattern .binary32 0x100000000#64 = false ∧ finitePattern .binary64 0x7FF0000000000000#64 = false := by decide

/-- No term of Instr is ill-formed: its fields have the widths of the command word (R71). -/
theorem test_every_instruction_wellFormed :
    Instr.nop.wellFormed = true ∧ (Instr.renderNearest true true).wellFormed = true ∧
    (Instr.renderLinear true true).wellFormed = true ∧ (Instr.renderCubic true true).wellFormed = true ∧
    (Instr.renderSinc7 true true).wellFormed = true ∧ (Instr.renderSilence 3 true true).wellFormed = true := by decide

/-! ## Decoding: words written out from R71 and R74, bit 31 first -/

theorem test_decode_nop : decode 0b00000000000000000000000000000000#32 = .ok .nop := by decide

theorem test_decode_nearest :
    decode 0b00000000000000000000000000000001#32 = .ok (.renderNearest false false) ∧
    decode 0b00000000000000000000001000000001#32 = .ok (.renderNearest false true) := by decide

theorem test_decode_linear :
    decode 0b00000000000000000000000100010001#32 = .ok (.renderLinear true false) ∧
    decode 0b00000000000000000000001000010001#32 = .ok (.renderLinear false true) := by decide

theorem test_decode_cubic :
    decode 0b00000000000000000000000000100001#32 = .ok (.renderCubic false false) ∧
    decode 0b00000000000000000000001100100001#32 = .ok (.renderCubic true true) := by decide

theorem test_decode_sinc7 :
    decode 0b00000000000000000000000100110001#32 = .ok (.renderSinc7 true false) ∧
    decode 0b00000000000000000000001000110001#32 = .ok (.renderSinc7 false true) := by decide

theorem test_decode_silence :
    decode 0b00000000000000000000000101000001#32 = .ok (.renderSilence 0 true false) ∧
    decode 0b00000000000000000000001001010001#32 = .ok (.renderSilence 1 false true) ∧
    decode 0b00000000000000000000000001110001#32 = .ok (.renderSilence 3 false false) := by decide

/-- R78: OP = 0x2 and 0xF, a zero opcode with another bit, and bits 7, 10 and 31 of a RENDER word. -/
theorem test_decode_reserved :
    decode 0x00000002#32 = .error .opcode ∧ decode 0x0000000F#32 = .error .opcode ∧
    decode 0x00000010#32 = .error .nopBits ∧ decode 0x80000000#32 = .error .nopBits ∧
    decode 0x00000081#32 = .error .renderBits ∧ decode 0x00000401#32 = .error .renderBits ∧
    decode 0x80000011#32 = .error .renderBits := by decide

theorem test_encode_example_words :
    encode (.renderLinear true false) = 0x00000111#32 ∧ encode (.renderCubic true true) = 0x00000321#32 ∧
    encode (.renderSinc7 false true) = 0x00000231#32 ∧ encode (.renderSilence 2 true false) = 0x00000161#32 := by decide

theorem test_decodeTableWord :
    decodeTableWord 32 0x111 = some (.renderLinear true false) ∧ decodeTableWord 32 2 = none := by decide

/-! ## Phases and the step conversion (95 B1, B2) -/

theorem test_setFloat :
    setFloat 0x3FB999999999999A#64 = some 0x0000000019999999#64 ∧ setFloat 0x3FD5555555555555#64 = some 0x55555555#64 ∧
    setFloat 0x3DE0000000000000#64 = some 0#64 ∧ setFloat 0x3DF0000000000000#64 = some 1#64 ∧
    setFloat 0x41EFFFFFFFFFFFFF#64 = some 0xFFFFFFFFFFFFF800#64 ∧ setFloat 0x8000000000000000#64 = some 0#64 := by
  decide +kernel

theorem test_setFloat_out_of_domain :
    setFloat 0x41F0000000000000#64 = none ∧ setFloat 0xBFF0000000000000#64 = none ∧
    setFloat 0x8000000000000001#64 = none ∧ setFloat 0x7FF0000000000000#64 = none ∧
    setFloat 0x7FF8000000000000#64 = none := by decide +kernel

theorem test_phase_operations :
    incrPhase 0x00000000FFFFFFFF#64 1#64 = some 0x0000000100000000#64 ∧
    incrPhase 0xFFFFFFFF00000000#64 0x0000000100000000#64 = none ∧
    subInt 0x0000000840000000#64 6 = 0x0000000240000000#64 ∧
    incrHalf 0xFFFFFFFFB3333334#64 = 0x0000000033333334#64 ∧ decrHalf 0x0000000033333334#64 = 0xFFFFFFFFB3333334#64 ∧
    idx 0x00000002FFFFFFFF#64 = 2 ∧ roundIdx 0x000000027FFFFFFF#64 = 2 ∧ roundIdx 0x0000000280000000#64 = 3 ∧
    row 0x0000000000FFFFFF#64 = 0 ∧ row 0x0000000001000000#64 = 1 ∧ row 0x00000000FFFFFFFF#64 = 255 := by decide

/-! ## One step of each command -/

/-- 95 B7.12: NOP. -/
theorem test_nop : seen (exec .nop { scenario 1 with count := 6 }) = some (none, 6, false, 0, false) := by decide +kernel

/-- 95 B3: NEAREST, extended precision, (0xFFFE, 0x80) gives -384 = 0xC3C00000; the phase moves by one unit. -/
theorem test_renderNearest_ext :
    seen (exec (.renderNearest false true)
      { small 1 tapRom [1, 0xFFFE, 0x7FFF, 0x8000, 0] 0 4 0 3 with waveLo := [(1, 0x80)], phaseHi := 1 }) =
      some (some 0xC3C00000, 1, false, 0x0000000200000000, false) := by decide +kernel

/-- 95 B7.5: NEAREST, looping, LOOPSTART 0: the working phase 3.0 wraps to 0.0, and PHASE takes the modular value. -/
theorem test_renderNearest_modular :
    seen (exec (.renderNearest true false)
      { small 1 tapRom [0, 10, 20, 30] 0 3 0 3 with stepHi := 0x3FE00000, phaseHi := 2 }) =
      some (some 0x41A00000, 1, false, 0xFFFFFFFF80000000, true) := by decide +kernel

/-- 95 section 1.1, slot 1 of call 2: 70 = 0x428C0000, the second lane virtual, and the wrap from 8 to 2. -/
theorem test_renderLinear_wrap :
    seen (exec (.renderLinear true false) { scenario 1 with phaseHi := 7 }) =
      some (some 0x428C0000, 1, false, 0x0000000200000000, true) := by decide +kernel

/-- 95 B5.3: LINEAR at row 1, extended precision: the product rounds in binary32, 0x4AFDFFFE. -/
theorem test_renderLinear_rounds :
    seen (exec (.renderLinear false true)
      { small 1 tapRom [0x7FFF, 0x8000, 0, 0, 0] 0 4 0 3 with waveLo := [(0, 0xFF), (1, 0)], phaseLo := 0x01000000 }) =
      some (some 0x4AFDFFFE, 1, false, 0x0000000101000000, false) := by decide +kernel

/-- 95 B4.1: CUBIC at i = 0, lanes 15!, 15, 1, 2: 0x21FF = 8703. -/
theorem test_renderCubic_prologue :
    seen (exec (.renderCubic true false) cubicState) =
      some (some 0x4607FC00, 1, false, 0x0000000100000000, false) := by decide +kernel

/-- 95 B4.1: CUBIC at i = last = END, lanes 6, 7, 7!, 7!: 0x7776 = 30582; a phase past END is written back. -/
theorem test_renderCubic_epilogue :
    seen (exec (.renderCubic false false) { cubicState with phaseHi := 7 }) =
      some (some 0x46EEEC00, 1, false, 0x0000000800000000, false) := by decide +kernel

/-- 95 B4.2 row 1: SINC7 at true phase 0, 860159. -/
theorem test_renderSinc7_prologue :
    seen (exec (.renderSinc7 true false) sincState) =
      some (some 0x4951FFF0, 1, false, 0x0000000100000000, false) := by decide +kernel

/-- 95 B4.2 row 3: SINC7 at 8.0 with the latch set, 109921, and the wrap before the exit. -/
theorem test_renderSinc7_wrap :
    seen (exec (.renderSinc7 true false) { sincState with phaseHi := 8, hasLooped := true }) =
      some (some 0x47D6B080, 1, false, 0x0000000200000000, true) := by decide +kernel

/-- 95 B7.8: SILENCE with step 13.0 from phase 20: three wraps to 2, the slot, then two wraps of 15 to 3. -/
theorem test_renderSilence_wraps :
    seen (exec (.renderSilence 2 true false) { scenario 1 with stepHi := 0x402A0000, phaseHi := 20 }) =
      some (some 0, 1, false, 0x0000000300000000, true) := by decide +kernel

/-- 95 P2: a render at an exhausted phase writes nothing: COUNT 0, SHORT 1, the phase as it was. -/
theorem test_renderSilence_exhausted :
    seen (exec (.renderSilence 0 false false) { scenario 1 with phaseHi := 10, count := 5 }) =
      some (none, 0, true, 0x0000000A00000000, false) := by decide +kernel

/-! ## Faults (95 B8) -/

/-- B8.1: a render at the state after reset. -/
theorem test_fault_markers_at_reset :
    stopped (step (State.reset.withFetchWord 32 0x11)) = some (.markers 0 0 0 0, none, 0) := by decide +kernel

/-- B8.2 to B8.5: a span below MIN_SPAN, END at WAVE_DEPTH, markers before step, a NaN step. -/
theorem test_fault_render_start :
    stopped (exec (.renderLinear false false) { scenario 1 with loopend := 4 }) = some (.markers 0 9 2 4, none, 0) ∧
    stopped (exec (.renderLinear false false) { scenario 1 with end_ := 10 }) = some (.markers 0 10 2 8, none, 0) ∧
    stopped (exec (.renderLinear false false) { scenario 1 with loopstart := 8, loopend := 2, stepHi := 0x7FF80000 }) =
      some (.markers 0 9 8 2, none, 0) ∧
    stopped (exec (.renderLinear false false) { scenario 1 with stepHi := 0x7FF80000 }) =
      some (.stepDomain 0x7FF8000000000000, none, 0) := by decide +kernel

/-- B8.11 row 2: PHASE_OVERFLOW after slot 0 is written; 5 = 0x40A00000. -/
def overflowState : State :=
  { small 64 tapRom [] 0 0xFFFFFFFF 0 3 with
    hw := ⟨64, 2 ^ 32, .binary32, tapRom⟩
    waveHi := [(0xFFFFFFFF, 5)]
    phaseHi := 0xFFFFFFFF
    count := 7 }

theorem test_fault_phaseOverflow :
    stopped (exec (.renderLinear false false) overflowState) =
      some (.phaseOverflow 0xFFFFFFFF00000000 0x0000000100000000 1, some 0x40A00000, 7) := by decide +kernel

/-- B8.7 to B8.10. -/
theorem test_fault_interface :
    stopped (step { scenario 1 with pending := [.wr 0x00 2] }) = some (.reservedCmd 2, none, 0) ∧
    stopped (step { scenario 1 with pending := [.wr 0x34 9] }) = some (.reservedReg 0x34 (some 9), none, 0) ∧
    stopped (step { scenario 1 with pending := [.rd 0x02] }) = some (.reservedReg 0x02 none, none, 0) ∧
    stopped (step { scenario 1 with pending := [.wr 0x0C 2] }) = some (.reservedReg 0x0C (some 2), none, 0) := by decide +kernel

/-! ## The port (95 B9) -/

/-- B9.1: CAPACITY is 64, STATUS and VFLAGS 0 after reset. -/
theorem test_port_after_reset :
    answered (hostRead 0x30 State.reset) = some (.reg 64) ∧ answered (hostRead 0x04 State.reset) = some (.reg 0) ∧
    answered (hostRead 0x0C State.reset) = some (.reg 0) ∧ answered (hostRead 0x00 State.reset) = some (.reg 0) := by
  decide +kernel

/-- B9.2, B9.8, and a SHORT render read as STATUS 2 (P2). -/
theorem test_port_reads_back :
    answered (runs 2 { scenario 1 with pending := [.wr 0x08 5, .rd 0x08] }) = some (.reg 0) ∧
    answered (runs 2 { scenario 1 with pending := [.wr 0x24 0xFFFFFFFF, .rd 0x24] }) =
      some (.reg 0xFFFFFFFF) ∧
    answered (runs 2 { scenario 1 with phaseHi := 10, pending := [.wr 0x00 0x41, .rd 0x04] }) =
      some (.reg 2) := by decide +kernel

/-- R53, R59: a waveform entry written is the sample played, and its slot is read back: 5 = 0x40A00000. -/
theorem test_wave_then_render_then_read :
    answered (runs 3 { scenario 1 with pending := [.wave 0 5 none, .wr 0x00 0x01, .rdOut 0] }) =
      some (.out 0x40A00000) := by decide +kernel

/-- R203: another agent's write while the render has written no slot. -/
theorem test_wave_race :
    stopped (step { scenario 1 with pending := [.issueRaced 0x11 0 3 0 none] }) = some (.waveRace 3, none, 0) := by
  decide +kernel

/-- R206: a reserved word, then the markers, come before a write of an entry that does not exist. -/
theorem test_race_priority :
    stopped (step { scenario 1 with pending := [.issueRaced 2 0 10 0 none] }) = some (.reservedCmd 2, none, 0) ∧
    stopped (step { scenario 1 with loopend := 4, pending := [.issueRaced 0x11 0 10 0 none] }) =
      some (.markers 0 9 2 4, none, 0) := by decide +kernel

/-- R220, S3: a reset after the first of two slots: that slot has some value, the other none, COUNT and PHASE are 0. -/
theorem test_reset_in_a_render :
    goesOn (fun t => (t.out.read 0).isSome && (t.out.read 1).isNone && t.count == 0 && t.phase == 0)
      (step { scenario 2 with phaseHi := 4, count := 2, pending := [.issueReset 0x11 1] }) = true := by decide +kernel

/-! ## Witnesses: a state and operands that meet the hypotheses of each statement that has any

Named after the statement of Certificates/Slice0/Obligations.lean. -/

theorem validMarkers_scenario (cap : Nat) : ValidMarkers (scenario cap) := by
  simp [ValidMarkers, scenario, small]

theorem validMarkers_overflow : ValidMarkers overflowState := by
  refine ⟨?_, ?_, ?_, ?_, ?_⟩ <;> decide

theorem witness_DecodingAnEncodedCommandGivesItBack : (Instr.renderSilence 3 true true).wellFormed = true := by decide

theorem witness_EncodingADecodedWordGivesItBack : decode 0x00000161#32 = .ok (.renderSilence 2 true false) := by decide

/-- One word for each clause: OP 2 and 15, bit 7, bit 10, and a zero opcode. -/
theorem witness_ReservedCommandWordFaults :
    (∀ w ∈ [2#32, 15#32, 0x81#32, 0x401#32, 0x10#32],
      { scenario 1 with pending := [.wr 0x00 w] }.fault = none ∧
      { scenario 1 with pending := [.wr 0x00 w] }.pending = [.wr 0x00 w]) ∧
    2 ≤ (2#32).toNat % 16 ∧ 2 ≤ (15#32).toNat % 16 ∧
    ((0x81#32).toNat % 16 = 1 ∧ (0x81#32).toNat / 2 ^ 7 % 2 = 1) ∧
    ((0x401#32).toNat % 16 = 1 ∧ (0x401#32).toNat / 2 ^ 10 ≠ 0) ∧
    ((0x10#32).toNat % 16 = 0 ∧ 0x10#32 ≠ 0) := by
  refine ⟨fun w _ => ⟨rfl, rfl⟩, ?_⟩; decide

theorem witness_StepRunsTheDecodedCommand :
    { scenario 1 with pending := [.wr 0x00 0x111] }.fault = none ∧
    { scenario 1 with pending := [.wr 0x00 0x111] }.pending = [.wr 0x00 0x111] ∧
    decode 0x111#32 = .ok (.renderLinear true false) ∧ decodeTableWord 32 0x111 = some (.renderLinear true false) := by
  refine ⟨rfl, rfl, ?_, ?_⟩ <;> decide

theorem witness_IdleCoreDoesNothing : (scenario 1).fault = none ∧ (scenario 1).pending = [] := ⟨rfl, rfl⟩

/-- A faulted state with nothing pending, and one with reset pending. -/
theorem witness_FaultedStateHasNoStepButReset :
    { scenario 1 with fault := some (.waveRace 3) }.fault = some (.waveRace 3) ∧
    (∀ rest, { scenario 1 with fault := some (.waveRace 3) }.pending ≠ .reset :: rest) ∧
    { scenario 1 with fault := some (.waveRace 3), pending := [.reset] }.pending = [.reset] :=
  ⟨rfl, fun _ h => (by cases h), rfl⟩

theorem witness_ResetGivesTheTableOfResetValues :
    { scenario 1 with fault := some (.waveRace 3), pending := [.reset] }.pending = [.reset] := rfl

theorem witness_RegisterReadsGiveTheirFields :
    (scenario 1).fault = none ∧ ReadsAs (scenario 1) 0x24 9 := ⟨rfl, rfl⟩

theorem witness_RegisterWriteIsReadBack :
    (scenario 1).fault = none ∧ 0x10 ∈ [0x10, 0x14, 0x18, 0x1C, 0x20, 0x24, 0x28, 0x2C] ∧ 0x30 ≠ 0x10 ∧
    ReadsAs (scenario 1) 0x30 1 := ⟨rfl, by decide, by decide, rfl⟩

/-- One offset or word for each clause. -/
theorem witness_ReservedAccessesFaultAndReadOnlyWritesAreIgnored :
    (scenario 1).fault = none ∧ 0x02 % 4 ≠ 0 ∧ 0x34 ≤ 0x34 ∧ (2#32).toNat / 2 ≠ 0 ∧ 0x30 ∈ [0x04, 0x08, 0x30] := by
  refine ⟨rfl, ?_⟩; decide

theorem witness_HostWritesTheHasLoopedLatch : (scenario 1).fault = none ∧ (1#32).toNat < 2 := ⟨rfl, by decide⟩

theorem witness_PseudoOperationsSetTheirRegisters : (scenario 1).fault = none := rfl

/-- The last entry of ten, and the first that does not exist. -/
theorem witness_WaveformWriteIsSeenByLaterFetches :
    (scenario 1).fault = none ∧ 9 < (scenario 1).hw.waveDepth ∧ (scenario 1).hw.waveDepth ≤ 10 :=
  ⟨rfl, by decide, by decide⟩

/-- A slot written, a slot that exists and is not, and the first that does not exist. -/
theorem witness_OutputSlotsReadAsWrittenOrFault :
    { scenario 2 with out := [(0, 5)] }.fault = none ∧
    (0 < { scenario 2 with out := [(0, 5)] }.hw.blockCap ∧ { scenario 2 with out := [(0, 5)] }.out.read 0 = some 5) ∧
    (1 < { scenario 2 with out := [(0, 5)] }.hw.blockCap ∧ { scenario 2 with out := [(0, 5)] }.out.read 1 = none) ∧
    { scenario 2 with out := [(0, 5)] }.hw.blockCap ≤ 2 := ⟨rfl, ⟨by decide, rfl⟩, ⟨by decide, rfl⟩, by decide⟩

theorem witness_StepConversionTruncatesTheBinary64Value :
    (Instr.renderLinear true false).renderOf = some (.linear, true, false) ∧
    ValidMarkers { scenario 1 with stepHi := 0x41F00000 } ∧ setFloat (0x41F00000#32 ++ 0#32) = none :=
  ⟨rfl, validMarkers_scenario 1, by decide +kernel⟩

/-- Sums 2^64 and 2^64 - 1, and a phase at LOOPEND exactly. -/
theorem witness_PhaseOperationsFollowTheirRules :
    2 ^ 64 ≤ (0xFFFFFFFF00000000#64).toNat + (0x0000000100000000#64).toNat ∧
    (0xFFFFFFFF00000000#64).toNat + (0x00000000FFFFFFFF#64).toNat < 2 ^ 64 ∧
    2 < 8 ∧ 8 ≤ idx 0x0000000800000000#64 := by decide

/-- The last phase whose half step does not wrap, and a zero fraction. -/
theorem witness_HalfStepBiasIsUndoneAndRounds :
    (0xFFFFFFFF7FFFFFFF#64).toNat < 2 ^ 64 - 2 ^ 31 ∧ frac 0x0000000400000000#64 = 0 := by decide

/-- Phase 20.0 in the scenario's loop. -/
def pastLoop : Work := ⟨0x0000001400000000, false, 0, [], 0⟩

theorem witness_WrapsInOneStepAreSingleWraps :
    ValidMarkers (scenario 1) ∧ ((scenario 1).latch .linear true false 0).last < idx pastLoop.ph :=
  ⟨validMarkers_scenario 1, by decide⟩

/-- The first and the last entry, and the indices just outside; a lane whose index is outside. -/
theorem witness_FetchCombinesTheStoredParts :
    ((0 : Int) ≤ 0 ∧ (0 : Int) < (scenario 1).hw.waveDepth) ∧ ((0 : Int) ≤ 9 ∧ (9 : Int) < (scenario 1).hw.waveDepth) ∧
    ¬ ((0 : Int) ≤ -1 ∧ (-1 : Int) < (scenario 1).hw.waveDepth) ∧
    ¬ ((0 : Int) ≤ 10 ∧ (10 : Int) < (scenario 1).hw.waveDepth) ∧
    ((scenario 1).laneIndex ((scenario 1).latch .nearest false false 0) false (idx pastLoop.ph) 0 = 20 ∧
      (scenario 1).fetch ((scenario 1).latch .nearest false false 0).ext 20 = none) := by
  refine ⟨?_, ?_, ?_, ?_, ?_⟩ <;> decide +kernel

theorem witness_TapConversionIsExact : |(-8388608 : Int)| ≤ 2 ^ 23 := by decide

/-- Each clause at the boundary of its range: START - 1, one before LOOPSTART, END + 1, and the two ends of the
region. -/
theorem witness_VirtualTapsReadTheSubstitutedSamples :
    ValidMarkers (scenario 1) ∧ (-1 : Int) < (scenario 1).start.toNat ∧ 1 ≤ 1 ∧
    (((scenario 1).end_.toNat : Int) < 10) ∧
    ((scenario 1).regionStart false ≤ 0 ∧ (0 : Int) ≤ (scenario 1).regionLast true) ∧
    (((scenario 1).regionStart true : Int) ≤ 7 ∧ (7 : Int) ≤ (scenario 1).regionLast true) := by
  refine ⟨validMarkers_scenario 1, ?_, ?_, ?_, ?_, ?_⟩ <;> decide

/-- The two ends of the region. -/
theorem witness_RegionsHaveTheVirtualLanesOfTheTable :
    ValidMarkers (scenario 1) ∧ ((scenario 1).regionStart true ≤ 2 ∧ 2 ≤ (scenario 1).regionLast true) ∧
    ((scenario 1).regionStart true ≤ 7 ∧ 7 ≤ (scenario 1).regionLast true) := by
  refine ⟨validMarkers_scenario 1, ?_, ?_⟩ <;> decide

theorem witness_NoFetchLeavesTheWaveform :
    ValidMarkers (scenario 1) ∧ 7 ≤ (scenario 1).regionLast true ∧ 6 < taps .sinc7 := by
  refine ⟨validMarkers_scenario 1, ?_, ?_⟩ <;> decide

theorem witness_RealArithmeticRoundsToNearestEven :
    (RealVal.value (.fin false 3 0) = some 3 ∧ RealVal.value (.fin true 5 0) = some (-5)) ∧ (0 = 0 ∨ 7 = 0) ∧
    (RealVal.value (.fin false 3 0) = some 3 ∧ RealVal.value (.fin true 3 0) = some (-3) ∧ (3 : ℚ) + -3 = 0) := by
  refine ⟨⟨?_, ?_⟩, .inl rfl, ?_, ?_, ?_⟩ <;> norm_num [RealVal.value]

/-- A subnormal and a normal value, and a NaN pattern of each format. -/
theorem witness_RealPatternsReadBack :
    RealVal.canonical .binary32 (.fin true 1 (-149)) ∧ RealVal.canonical .binary32 (.fin false (2 ^ 23) 0) ∧
    (realOfBits .binary32 0xFFC00001#64 = .nan ∧ (0xFFC00001#64).toNat < 2 ^ 32) ∧
    realOfBits .binary64 0x7FF0000000000001#64 = .nan := by
  refine ⟨⟨?_, ?_, ?_, ?_⟩, ⟨?_, ?_, ?_, ?_⟩, ?_, ?_⟩ <;> decide

/-- A working state at index 4 of SINC7's vector, and one past a lookback: every tap of every kernel fetches. -/
theorem witness_SlotValuesOfTheFiveKernels :
    (∀ k ∈ [Kernel.nearest, .linear, .cubic, .sinc7, .silence], (sincState.latch k false false 0).kernel = k) ∧
    (0 : Fin 256).val = row 0x0000000400000000#64 ∧
    sincState.fetch false (idx 0x0000000400000000#64) = some 0 ∧
    ([-3, -2, -1, 0, 1, 2, 3].map fun o : Int =>
      sincState.fetch false (sincState.tapIndex false false (idx 0x0000000400000000#64 + o))) =
      [some 1, some 2, some 3, some 0, some 1, some 4, some 5] := by
  refine ⟨?_, ?_, ?_, ?_⟩ <;> decide +kernel

theorem degenerate_unitRom : DegenerateRom ⟨1, 10, .binary32, unitRom⟩ := by
  refine ⟨?_, ?_, ?_⟩ <;> decide +kernel

theorem witness_UnitWeightsReproduceTheSample :
    DegenerateRom ⟨1, 10, .binary32, unitRom⟩ ∧ |(-8388608 : Int)| ≤ 2 ^ 23 ∧ row 0x0000000400000000#64 = 0 ∧
    row 0x0000000480000000#64 = 128 := ⟨degenerate_unitRom, by decide, by decide, by decide⟩

theorem moderate_unitRom : ModerateRom ⟨1, 10, .binary32, unitRom⟩ := by
  have h : ∀ k r, ∀ c ∈ coefBits unitRom k r, c = 0#64 ∨ c = 0x3F800000#64 := by
    intro k r c hc
    have hr := r.isLt
    cases k <;> simp [coefBits, unitRom, Vector.get] at hc <;> tauto
  intro k r c hc
  obtain ⟨b, hb, rfl⟩ := List.mem_map.1 hc
  rcases h k r b hb with rfl | rfl
  · have : realOfBits .binary32 0#64 = .fin false 0 (-149) := by decide
    exact ⟨0, by rw [this]; simp [RealVal.value], by norm_num⟩
  · have : realOfBits .binary32 0x3F800000#64 = .fin false (2 ^ 23) (-23) := by decide
    exact ⟨1, by rw [this]; norm_num [RealVal.value], by norm_num⟩

theorem witness_ModerateCoefficientsGiveFiniteSamples :
    ModerateRom (small 1 unitRom [0, 10, 20, 30, 40, 50, 60, 70, 80, 90] 0 9 2 8).hw ∧
    ∃ y, (small 1 unitRom [0, 10, 20, 30, 40, 50, 60, 70, 80, 90] 0 9 2 8).slotValue
      ((small 1 unitRom [0, 10, 20, 30, 40, 50, 60, 70, 80, 90] 0 9 2 8).latch .linear true false 0)
      ⟨0, false, 0, [], 0⟩ = .ok y :=
  ⟨moderate_unitRom, _, rfl⟩

/-- A render's markers outside the invariant; and, in them, a step that is a NaN and one that is 2^32 exactly. -/
theorem witness_RenderStartFaultsAreMarkersThenStepDomain :
    (Instr.renderCubic true false).renderOf = some (.cubic, true, false) ∧
    ¬ ValidMarkers { scenario 1 with loopend := 4 } ∧
    (∀ v, binary64Value (0x7FF80000#32 ++ 0#32) = some v → v < 0 ∨ (2 : ℚ) ^ 32 ≤ v) ∧
    ∀ v, binary64Value (0x41F00000#32 ++ 0#32) = some v → v < 0 ∨ (2 : ℚ) ^ 32 ≤ v := by
  refine ⟨rfl, ?_, ?_, ?_⟩
  · intro h; exact absurd h.2.2.2.2 (by decide)
  · intro v h; simp [binary64Value] at h
  · intro v h
    simp [binary64Value] at h
    subst h; norm_num

/-- The premises of RendersComplete for each of the five commands, with every choice of fields. -/
theorem witness_RendersComplete (loop ext : Bool) (q : BitVec 2) :
    ((Instr.renderNearest loop ext).renderOf = some (.nearest, loop, ext) ∧
      (Instr.renderLinear loop ext).renderOf = some (.linear, loop, ext) ∧
      (Instr.renderCubic loop ext).renderOf = some (.cubic, loop, ext) ∧
      (Instr.renderSinc7 loop ext).renderOf = some (.sinc7, loop, ext) ∧
      (Instr.renderSilence q loop ext).renderOf = some (.silence, loop, ext)) ∧
    ValidMarkers (scenario 6) ∧ setFloat ((scenario 6).stepHi ++ (scenario 6).stepLo) = some 0x0000000100000000#64 ∧
    PhaseRoom (scenario 6) loop 0x0000000100000000#64 := by
  refine ⟨⟨rfl, rfl, rfl, rfl, rfl⟩, validMarkers_scenario 6, by decide, ?_⟩
  unfold PhaseRoom
  cases loop <;> decide

theorem witness_RenderDoesWhatThePassesDo :
    (Instr.renderSinc7 true true).renderOf = some (.sinc7, true, true) ∧ ValidMarkers (scenario 6) ∧
    setFloat ((scenario 6).stepHi ++ (scenario 6).stepLo) = some 0x0000000100000000#64 :=
  ⟨rfl, validMarkers_scenario 6, by decide⟩

/-- A command that stops with each of the three codes. -/
theorem witness_RenderFaultsLeaveTheRegistersAsTheyWere :
    (∃ f, exec (.renderLinear false false) { scenario 1 with loopend := 4 } = .fault f) ∧
    (∃ f, exec (.renderLinear false false) { scenario 1 with stepHi := 0x7FF80000 } = .fault f) ∧
    ∃ f, exec (.renderLinear false false) overflowState = .fault f :=
  ⟨⟨_, rfl⟩, ⟨_, rfl⟩, ⟨_, rfl⟩⟩

/-- Every command answers a next state at the scenario's state, on a well-formed build: the premises of CommandFrame,
PhaseAdvancesByTheStepLessWholeSpans and RenderDependsOnTheVoiceContextOnly. -/
theorem witness_CommandFrame :
    (scenario 2).hw.wellFormed = true ∧ setFloat ((scenario 2).stepHi ++ (scenario 2).stepLo) = some 0x100000000#64 ∧
    (∃ t, exec .nop (scenario 2) = .next t) ∧ (∃ t, exec (.renderNearest true true) (scenario 2) = .next t) ∧
    (∃ t, exec (.renderLinear true false) (scenario 2) = .next t) ∧
    (∃ t, exec (.renderCubic false true) (scenario 2) = .next t) ∧
    (∃ t, exec (.renderSinc7 true false) (scenario 2) = .next t) ∧
    ∃ t, exec (.renderSilence 1 false false) (scenario 2) = .next t := by
  have run : ∀ i ∈ [Instr.nop, .renderNearest true true, .renderLinear true false, .renderCubic false true,
      .renderSinc7 true false, .renderSilence 1 false false], ∃ t, exec i (scenario 2) = .next t := by
    intro i hi
    have h : ([Instr.nop, .renderNearest true true, .renderLinear true false, .renderCubic false true,
      .renderSinc7 true false, .renderSilence 1 false false].all fun i => goesOn (fun _ => true) (exec i (scenario 2))) =
      true := by decide +kernel
    obtain ⟨t, ht, _⟩ := exists_next (List.all_eq_true.1 h i hi)
    exact ⟨t, ht⟩
  refine ⟨by decide +kernel, by decide, ?_, ?_, ?_, ?_, ?_, ?_⟩ <;> exact run _ (by simp)

/-- A looping render, and a non-looping one that returns short. -/
theorem witness_ShortCountsMeanExhaustion :
    (scenario 2).hw.wellFormed = true ∧
    (∃ t, exec (.renderLinear true false) (scenario 2) = .next t) ∧
    ∃ t, exec (.renderLinear false false) { scenario 2 with phaseHi := 9 } = .next t ∧
      decide (t.count.toNat < (scenario 2).hw.blockCap) = true := by
  refine ⟨by decide +kernel, witness_CommandFrame.2.2.2.2.1, exists_next ?_⟩
  decide +kernel

theorem witness_PhaseAdvancesByTheStepLessWholeSpans :
    (Instr.renderLinear true false).renderOf = some (.linear, true, false) ∧ (scenario 2).hw.wellFormed = true ∧
    setFloat ((scenario 2).stepHi ++ (scenario 2).stepLo) = some 0x100000000#64 ∧
    ∃ t, exec (.renderLinear true false) (scenario 2) = .next t :=
  ⟨rfl, witness_CommandFrame.1, witness_CommandFrame.2.1, witness_CommandFrame.2.2.2.2.1⟩

/-- LINEAR from START; NEAREST with a wrap at LOOPSTART 2, and with one at LOOPSTART 0 that leaves the modular phase. -/
theorem witness_LoopingRendersEndInsideTheLoop :
    ((scenario 2).start.toNat ≤ idx (scenario 2).phase ∧ ∃ t, exec (.renderLinear true false) (scenario 2) = .next t) ∧
    (∃ t, exec (.renderNearest true false) { scenario 2 with phaseHi := 7 } = .next t ∧
      decide ((incrHalf t.phase).toNat ≠ (incrHalf 0x0000000700000000#64).toNat + t.count.toNat * 2 ^ 32 ∧
        1 ≤ (scenario 2).loopstart.toNat) = true) ∧
    ∃ t, exec (.renderNearest true false)
        { small 1 tapRom [0, 10, 20, 30] 0 3 0 3 with stepHi := 0x3FE00000, phaseHi := 2 } = .next t ∧
      decide ((incrHalf t.phase).toNat ≠ (incrHalf 0x0000000200000000#64).toNat + t.count.toNat * 2 ^ 31 ∧
        (incrHalf t.phase).toNat < 2 ^ 31) = true := by
  refine ⟨⟨by decide, witness_CommandFrame.2.2.2.2.1⟩, exists_next ?_, exists_next ?_⟩ <;> decide +kernel

theorem witness_SilenceFollowsLinearAndCubic :
    (Instr.renderLinear true false).renderOf = some (.linear, true, false) ∧
    (Instr.renderCubic false true).renderOf = some (.cubic, false, true) ∧ (scenario 2).hw.wellFormed = true ∧
    (∃ t, exec (.renderLinear true false) (scenario 2) = .next t) ∧
    ∃ t, exec (.renderCubic false true) (scenario 2) = .next t :=
  ⟨rfl, rfl, witness_CommandFrame.1, witness_CommandFrame.2.2.2.2.1, witness_CommandFrame.2.2.2.2.2.1⟩

theorem witness_SilenceReadsNoSampleAndNoCoefficient :
    ∃ t, exec (.renderSilence 1 false false) (scenario 2) = .next t := witness_CommandFrame.2.2.2.2.2.2.2

theorem witness_StandardPrecisionReadsNoLowPart :
    (Instr.renderLinear true false).renderOf = some (.linear, true, false) ∧
    ∃ t, exec (.renderLinear true false) (scenario 2) = .next t := ⟨rfl, witness_CommandFrame.2.2.2.2.1⟩

/-- Two states that differ in COUNT and the output memory have the same context. -/
theorem witness_RenderDependsOnTheVoiceContextOnly :
    SameContext (scenario 2) { scenario 2 with count := 1, out := [(0, 5)] } ∧ Instr.renderLinear true false ≠ .nop ∧
    ∃ t, exec (.renderLinear true false) (scenario 2) = .next t :=
  ⟨⟨rfl, rfl, rfl, rfl, rfl, rfl, rfl, rfl, rfl, rfl, rfl, rfl⟩, by decide, witness_CommandFrame.2.2.2.2.1⟩

theorem witness_RestoringAContextGivesItBack :
    (scenario 2).fault = none ∧ (scenario 2).hw = { scenario 2 with phaseHi := 3 }.hw ∧
    (scenario 2).waveHi = { scenario 2 with phaseHi := 3 }.waveHi ∧
    (scenario 2).waveLo = { scenario 2 with phaseHi := 3 }.waveLo := ⟨rfl, rfl, rfl, rfl⟩

/-- A render with the latch set; a non-looping render; a host write that clears the latch; reset, also in a render. -/
theorem witness_OnlyTheHostClearsTheLatch :
    (∃ t, exec (.renderLinear true false) { scenario 1 with hasLooped := true } = .next t ∧ t.hasLooped = true) ∧
    (∃ t, exec (.renderCubic false true) (scenario 2) = .next t) ∧
    ∀ op ∈ [HostOp.wr 0x0C 0, .reset, .issueReset 0x11 0], ∃ t,
      step { scenario 1 with hasLooped := true, pending := [op] } = .next t ∧ (!t.hasLooped) = true := by
  have h : ([HostOp.wr 0x0C 0, .reset, .issueReset 0x11 0].all fun op =>
      goesOn (fun t => !t.hasLooped) (step { scenario 1 with hasLooped := true, pending := [op] })) = true := by
    decide +kernel
  exact ⟨exists_next (p := State.hasLooped) (by decide +kernel), witness_CommandFrame.2.2.2.2.2.1,
    fun op hop => exists_next (List.all_eq_true.1 h op hop)⟩

/-- A step that changes COUNT, PHASE and HAS_LOOPED, one that changes the waveform, one that changes a marker, and one
that changes PHASE_LO. -/
theorem witness_WhoMayChangeWhat :
    (∃ t, step { scenario 1 with phaseHi := 7, pending := [.wr 0x00 0x111] } = .next t ∧
      decide (t.count ≠ 0 ∧ t.phaseHi ≠ 7 ∧ t.hasLooped ≠ false) = true) ∧
    (∃ t, step { scenario 1 with pending := [.wave 0 5 none] } = .next t ∧
      decide (t.waveHi ≠ (scenario 1).waveHi) = true) ∧
    (∃ t, step { scenario 1 with pending := [.wr 0x24 8] } = .next t ∧ decide (t.end_ ≠ (scenario 1).end_) = true) ∧
    ∃ t, step { scenario 1 with pending := [.wr 0x10 8] } = .next t ∧ decide (t.phaseLo ≠ 0) = true := by
  refine ⟨exists_next (p := fun t => decide (t.count ≠ 0 ∧ t.phaseHi ≠ 7 ∧ t.hasLooped ≠ false)) ?_,
    exists_next (p := fun t => decide (t.waveHi ≠ (scenario 1).waveHi)) ?_,
    exists_next (p := fun t => decide (t.end_ ≠ (scenario 1).end_)) ?_,
    exists_next (p := fun t => decide (t.phaseLo ≠ 0)) ?_⟩ <;> decide +kernel

/-- A render that writes two slots: a write after the second races with it, one after a third does not. -/
theorem witness_WaveformWriteDuringARenderIsARace :
    (scenario 2).fault = none ∧ (scenario 2).hw.wellFormed = true ∧ 9 < (scenario 2).hw.waveDepth ∧
    decode 0x111#32 = .ok (.renderLinear true false) ∧
    (Instr.renderLinear true false).renderOf = some (.linear, true, false) ∧
    ∃ t, exec (.renderLinear true false) { scenario 2 with pending := [] } = .next t ∧
      decide (2 ≤ t.count.toNat ∧ t.count.toNat < 3) = true := by
  refine ⟨rfl, witness_CommandFrame.1, by decide, by decide, rfl,
    exists_next (p := fun t => decide (2 ≤ t.count.toNat ∧ t.count.toNat < 3)) ?_⟩
  decide +kernel

/-- A small state has the invariant, and a step that renders goes on from it. -/
theorem witness_EveryStepKeepsTheInvariant :
    { scenario 2 with pending := [.wr 0x00 0x111] }.Inv ∧
    ∃ t, step { scenario 2 with pending := [.wr 0x00 0x111] } = .next t ∧ decide (t.count = 2) = true := by
  refine ⟨?_, exists_next (p := fun t => decide (t.count = 2)) (by decide +kernel)⟩
  exact
    { hardware := witness_CommandFrame.1
      idle := rfl
      countInBlock := Nat.zero_le _
      waveHiForm := ⟨by decide, by decide⟩
      waveLoForm := ⟨by decide, by decide⟩
      outForm := ⟨rfl, rfl⟩
      outWidth := fun _ _ h => by cases h
      outPrefix := fun _ h => absurd h (Nat.not_lt_zero _) }

/-- A slot value of a kernel, and a render that writes two slots. -/
theorem witness_EverySlotReadsAsItsValue :
    (∃ y, (scenario 2).slotValue ((scenario 2).latch .linear true false 0x100000000#64) ⟨0, false, 0, [], 0⟩ = .ok y) ∧
    (0 : Nat) ≠ 1 ∧ (Instr.renderLinear true false).renderOf = some (.linear, true, false) ∧
    setFloat ((scenario 2).stepHi ++ (scenario 2).stepLo) = some 0x100000000#64 ∧
    ∃ t, exec (.renderLinear true false) (scenario 2) = .next t ∧ decide (1 < t.count.toNat) = true := by
  refine ⟨⟨_, rfl⟩, by decide, rfl, by decide, exists_next (p := fun t => decide (1 < t.count.toNat)) ?_⟩
  decide +kernel

/-- Two slots written: a reset after the second abandons the render (slots 1 and 2 on either side of the moment), one
after a third does not; and the greatest pattern of binary32. -/
theorem witness_ResetDuringARenderAbandonsIt :
    (scenario 2).fault = none ∧ (scenario 2).hw.wellFormed = true ∧ decode 0x111#32 = .ok (.renderLinear true false) ∧
    (Instr.renderLinear true false).renderOf = some (.linear, true, false) ∧
    (∃ t, exec (.renderLinear true false) { scenario 2 with pending := [] } = .next t ∧
      decide (2 ≤ t.count.toNat ∧ t.count.toNat < 3) = true) ∧ 1 < 2 ∧ 2 ≤ 2 ∧ (0xFFFFFFFF#64).toNat < 2 ^ 32 :=
  ⟨rfl, witness_CommandFrame.1, by decide, rfl, witness_WaveformWriteDuringARenderIsARace.2.2.2.2.2, by decide, by decide,
    by decide⟩

/-- A reserved word; a span that is too short; and a step that is a NaN. -/
theorem witness_EarlierFaultsComeFirst :
    (scenario 1).fault = none ∧ decode 2#32 = .error .opcode ∧ decode 0x111#32 = .ok (.renderLinear true false) ∧
    (Instr.renderLinear true false).renderOf = some (.linear, true, false) ∧
    ¬ ValidMarkers { scenario 1 with loopend := 4 } ∧ ValidMarkers { scenario 1 with stepHi := 0x7FF80000 } ∧
    setFloat (0x7FF80000#32 ++ 0#32) = none :=
  ⟨rfl, by decide, by decide, rfl, fun h => absurd h.2.2.2.2 (by decide), validMarkers_scenario 1, by decide +kernel⟩

end Sys2Proof.Tests
end

section
/-! PROOFS. The invariant: it holds at reset, every update of the state keeps it, and so every step that goes on does. -/

-- No proof of this section mentions a section variable, so the option only has the proofs run one after another:
-- beside the tests above, which wait for the kernel all at once, they need more threads than check.sh's memory holds.
set_option deprecated.oldSectionVars true

namespace Sys2Proof

/-- Clearing the low exponent bit of a pattern whose exponent field is all ones leaves a finite value (R140). -/
theorem finitePattern_finite32 (w : BitVec 32) : finitePattern .binary32 (Config.finite32 w) = true := by
  have hlt : (Config.finite32 w).toNat < 2 ^ 32 := by
    simp only [Config.finite32, BitVec.toNat_setWidth]
    split <;> omega
  have hfield : (Config.finite32 w).extractLsb' 23 8 ≠ 255#8 := by
    unfold Config.finite32
    split
    · intro h
      have hbit := congrArg (fun v => v.getLsbD 0) h
      simp at hbit
    · rename_i h
      rwa [BitVec.extractLsb'_setWidth_of_le (by decide)]
  simpa [finitePattern, hfield] using hlt

theorem Hardware.wellFormed_iff {hw : Hardware} : hw.wellFormed = true ↔
    1 ≤ hw.blockCap ∧ hw.blockCap < 2 ^ 32 ∧ 1 ≤ hw.waveDepth ∧ hw.waveDepth ≤ 2 ^ 32 ∧
      hw.rom.finite hw.fmt = true := by
  simp [Hardware.wellFormed, and_assoc]

/-- The parameters at reset are in the ranges of R6, whatever the open ones are. -/
theorem Config.hardware_wellFormed : Config.hardware.wellFormed = true := by
  have hrom : Config.hardware.rom.finite .binary32 = true := by
    simp [Rom.finite, Config.hardware, finitePattern_finite32]
  exact Hardware.wellFormed_iff.2
    ⟨by decide, by decide, Nat.succ_pos _, Config.waveDepthLessOne.isLt, hrom⟩

end Sys2Proof

namespace Sys2Proof.Machine

theorem Memory.below_mono {α : Type} {m : Memory α} {a b : Nat} (h : m.below a = true) (hab : a ≤ b) :
    m.below b = true := by
  induction m with
  | nil => rfl
  | cons e rest ih =>
    simp only [Memory.below, Bool.and_eq_true, decide_eq_true_eq] at h ⊢
    exact ⟨lt_of_lt_of_le h.1 hab, ih h.2⟩

/-! ### The output memory's part of the invariant -/

/-- What the invariant asks of an output memory of `cap` slots of which the first `n` have been written (R53, R233). -/
def OutFits (fmt : RealFmt) (cap n : Nat) (out : Memory RealBits) : Prop :=
  (out.wf = true ∧ out.below cap = true) ∧
  (∀ slot v, out.read slot = some v → fmt = .binary32 → v.toNat < 2 ^ 32) ∧
  ∀ slot, slot < n → (out.read slot).isSome = true

theorem OutFits.nil (fmt : RealFmt) (cap : Nat) : OutFits fmt cap 0 [] :=
  ⟨⟨rfl, rfl⟩, fun _ _ h => (by cases h), fun _ h => absurd h (Nat.not_lt_zero _)⟩

theorem OutFits.noneWritten {fmt : RealFmt} {cap n : Nat} {out : Memory RealBits} (h : OutFits fmt cap n out) :
    OutFits fmt cap 0 out := by
  obtain ⟨hform, hwidth, _⟩ := h
  exact ⟨hform, hwidth, fun _ hlt => absurd hlt (Nat.not_lt_zero _)⟩

/-- Writing the next slot; the limit is one the write cannot leave, so that nothing need be known of `n`. -/
theorem OutFits.write {fmt : RealFmt} {cap n : Nat} {out : Memory RealBits} {v : RealBits}
    (h : OutFits fmt (max cap n) n out) (hv : fmt = .binary32 → v.toNat < 2 ^ 32) :
    OutFits fmt (max cap (n + 1)) (n + 1) (out.write n v) := by
  obtain ⟨⟨hwf, hbelow⟩, hwidth, hwritten⟩ := h
  refine ⟨⟨Memory.wf_write n v hwf, Memory.below_write v (Memory.below_mono hbelow (by omega)) (by omega)⟩,
    fun slot u hu => ?_, fun slot hlt => ?_⟩
  · rw [Memory.read_write] at hu
    split at hu
    · cases hu; exact hv
    · exact hwidth slot u hu
  · rw [Memory.read_write]
    split
    · rfl
    · exact hwritten slot (by omega)

theorem OutFits.abandonedOut {fmt : RealFmt} {cap n : Nat} (ctr : Nat) (h : n ≤ cap) :
    OutFits fmt cap 0 (abandonedOut fmt ctr n) := by
  refine ⟨⟨abandonedOut_wf fmt ctr n, abandonedOut_below fmt ctr h⟩, fun slot v hv hfmt => ?_,
    fun _ hlt => absurd hlt (Nat.not_lt_zero _)⟩
  subst hfmt
  rw [read_abandonedOut] at hv
  split at hv
  · cases hv; exact anyPattern_binary32_lt _
  · cases hv

/-! ### What the slot loop keeps -/

/-- The value of a slot has the format's form (R146 to R150). -/
theorem State.slotValue_canonical {s : State} {l : Latch} {w : Work} {y : RealVal} (h : s.slotValue l w = .ok y) :
    y.canonical s.hw.fmt := by
  unfold State.slotValue at h
  split at h
  · cases h
  · cases h; exact sampleValue_canonical _ _ _ _

/-- The slots a render has written so far fit the format and are the first `n`. -/
def Work.Fits (hw : Hardware) (w : Work) : Prop := OutFits hw.fmt (max hw.blockCap w.n) w.n w.out

theorem Work.Fits.slot {hw : Hardware} {w : Work} {y : RealVal} (ph : Phase) (h : w.Fits hw)
    (hy : y.canonical hw.fmt) : Work.Fits hw { w.outWrite hw.fmt y with ph := ph } :=
  OutFits.write h fun hfmt => by rw [hfmt] at hy ⊢; exact bitsOfReal_binary32_lt _ hy

/-- Where the slot loop of a render exits, within the block, its output memory fits. -/
theorem State.slotLoop_done_outFits {s : State} {k : Kernel} {loop ext : Bool} {incr : Phase} {left : Nat} {w : Work}
    (hv : ValidMarkers s) (hout : OutFits s.hw.fmt s.hw.blockCap 0 s.out) (hleft : left ≤ s.hw.blockCap)
    (h : s.slotLoop (s.latch k loop ext incr) left (s.startWork k) = .done w) :
    w.n ≤ s.hw.blockCap ∧ OutFits s.hw.fmt s.hw.blockCap w.n w.out := by
  have hl := hv.latch_sound k loop ext incr
  have hn : w.n ≤ s.hw.blockCap := by
    have hexit := State.slotLoop_exit hl h
    simp only [State.startWork_n] at hexit
    omega
  have hstart : (s.startWork k).Fits s.hw := by simpa [Work.Fits] using hout
  have hdone : w.Fits s.hw :=
    State.slotLoop_done hl (fun _ hw _ _ => hw) (fun _ _ ph hw _ hy _ => hw.slot ph (slotValue_canonical hy)) hstart h
  rw [Work.Fits, max_eq_left hn] at hdone
  exact ⟨hn, hdone⟩

/-! ### The invariant, update by update -/

theorem State.Inv.outFits {s : State} (h : s.Inv) : OutFits s.hw.fmt s.hw.blockCap s.count.toNat s.out :=
  ⟨h.outForm, h.outWidth, h.outPrefix⟩

/-- An update that leaves the parameters and the waveform alone need only be checked on BUSY, COUNT and OUT. -/
theorem State.Inv.update {s t : State} (h : s.Inv) (hhw : t.hw = s.hw) (hhi : t.waveHi = s.waveHi)
    (hlo : t.waveLo = s.waveLo) (hbusy : t.busy = false) (hcount : t.count.toNat ≤ s.hw.blockCap)
    (hout : OutFits s.hw.fmt s.hw.blockCap t.count.toNat t.out) : t.Inv := by
  obtain ⟨hform, hwidth, hwritten⟩ := hout
  rw [← hhw] at hcount hform hwidth
  exact
    { hardware := hhw ▸ h.hardware
      idle := hbusy
      countInBlock := hcount
      waveHiForm := by rw [hhw, hhi]; exact h.waveHiForm
      waveLoForm := by rw [hhw, hlo]; exact h.waveLoForm
      outForm := hform
      outWidth := hwidth
      outPrefix := hwritten }

theorem State.Inv.withPending {s : State} (h : s.Inv) (ops : List HostOp) : State.Inv { s with pending := ops } :=
  h.update rfl rfl rfl h.idle h.countInBlock h.outFits

theorem State.Inv.withAnswer {s : State} (h : s.Inv) (a : Option Answer) : State.Inv { s with answer := a } :=
  h.update rfl rfl rfl h.idle h.countInBlock h.outFits

theorem State.Inv.registerWrite {s t : State} (h : s.Inv) (hw : RegisterWrite s t) : t.Inv :=
  h.update hw.hw hw.waveHi hw.waveLo (hw.busy.trans h.idle) (by rw [hw.count]; exact h.countInBlock)
    (by rw [hw.count, hw.out]; exact h.outFits)

theorem State.Inv.resetCore {s : State} (h : s.Inv) : s.resetCore.Inv :=
  h.update rfl rfl rfl rfl (Nat.zero_le _) (OutFits.nil _ _)

theorem State.Inv.abandon {s : State} {w : Work} (h : s.Inv) (hn : w.n ≤ s.hw.blockCap) : (s.abandon w).Inv :=
  h.update rfl rfl rfl rfl (Nat.zero_le _) (OutFits.abandonedOut _ hn)

theorem State.Inv.renderEnd {s : State} {w : Work} (h : s.Inv) (k : Kernel) (hn : w.n ≤ s.hw.blockCap)
    (hout : OutFits s.hw.fmt s.hw.blockCap w.n w.out) : (s.renderEnd k w).Inv := by
  obtain ⟨_, hcap, _⟩ := Hardware.wellFormed_iff.1 h.hardware
  have hcount : (s.renderEnd k w).count.toNat = w.n := by
    rw [State.renderEnd_count, BitVec.toNat_ofNat]
    exact Nat.mod_eq_of_lt (lt_of_le_of_lt hn hcap)
  exact h.update rfl rfl rfl rfl (hcount ▸ hn) (hcount ▸ hout)

theorem State.Inv.writeWave {s : State} {index : Nat} (h : s.Inv) (hi : BitVec 16) (lo : Option (BitVec 8))
    (hlt : index < s.hw.waveDepth) : (s.writeWave index hi lo).Inv := by
  obtain ⟨hhi, hlo⟩ := State.writeWave_wf index hi lo ⟨h.waveHiForm.1, h.waveLoForm.1⟩
  refine
    { hardware := h.hardware
      idle := h.idle
      countInBlock := h.countInBlock
      waveHiForm := ⟨hhi, Memory.below_write hi h.waveHiForm.2 hlt⟩
      waveLoForm := ⟨hlo, ?_⟩
      outForm := h.outForm
      outWidth := h.outWidth
      outPrefix := h.outPrefix }
  cases lo with
  | none => exact h.waveLoForm.2
  | some b => exact Memory.below_write b h.waveLoForm.2 hlt

/-! ### The invariant, operation by operation -/

/-- A slot loop that exits within the block leaves a state with the invariant, written back or abandoned. -/
theorem State.Inv.slotLoop_done {s : State} {k : Kernel} {loop ext : Bool} {incr : Phase} {left : Nat} {w : Work}
    (h : s.Inv) (hv : ValidMarkers s) (hleft : left ≤ s.hw.blockCap)
    (hdone : s.slotLoop (s.latch k loop ext incr) left (s.startWork k) = .done w) :
    (s.renderEnd k w).Inv ∧ (s.abandon w).Inv := by
  obtain ⟨hn, hout⟩ := State.slotLoop_done_outFits hv h.outFits.noneWritten hleft hdone
  exact ⟨h.renderEnd k hn hout, h.abandon hn⟩

theorem exec_keeps_inv {i : Instr} {s t : State} (h : s.Inv) (he : exec i s = .next t) : t.Inv := by
  obtain ⟨_, hnop⟩ | ⟨k, loop, ext, _, hr⟩ := exec_cases i s
  · rw [hnop] at he
    cases he
    exact h
  · rw [hr] at he
    obtain ⟨incr, w, hv, _, hdone, rfl⟩ := render_eq_next he
    exact (h.slotLoop_done hv le_rfl hdone).1

theorem renderRaced_keeps_inv {k : Kernel} {loop ext : Bool} {after index : Nat} {hi : BitVec 16}
    {lo : Option (BitVec 8)} {s t : State} (h : s.Inv)
    (hr : renderRaced k loop ext after index hi lo s = .next t) : t.Inv := by
  obtain ⟨incr, w, hv, _, hdone, _, hlt, rfl⟩ := renderRaced_eq_next hr
  exact (h.slotLoop_done hv (min_le_right _ _) hdone).1.writeWave hi lo hlt

theorem renderReset_keeps_inv {k : Kernel} {loop ext : Bool} {after : Nat} {s t : State} (h : s.Inv)
    (hr : renderReset k loop ext after s = .next t) : t.Inv := by
  obtain ⟨incr, w, hv, _, hdone, _, rfl⟩ | ⟨w, rfl⟩ := renderReset_next hr
  · exact (h.slotLoop_done hv (min_le_right _ _) hdone).2
  · exact h.update rfl rfl rfl rfl (Nat.zero_le _) (OutFits.nil _ _)

theorem hostStep_keeps_inv {op : HostOp} {s t : State} (h : s.Inv) (ho : hostStep op s = .next t) : t.Inv := by
  rcases hostStep_next ho with ⟨_, _, _, _, _, _, hexec⟩ | ⟨_, _, _, _, _, _, hwrite, _⟩ | ⟨_, _, _, _, rfl⟩ |
    ⟨_, _, _, _, rfl⟩ | ⟨_, hi, lo, _, hlt, rfl⟩ | ⟨_, _, _, _, _, _, _, _, _, _, _, _, hraced⟩ | ⟨_, rfl⟩ |
    ⟨_, _, _, _, _, _, _, _, _, hreset⟩
  · exact exec_keeps_inv h hexec
  · exact h.registerWrite hwrite
  · exact h.withAnswer _
  · exact h.withAnswer _
  · exact h.writeWave hi lo hlt
  · exact renderRaced_keeps_inv h hraced
  · exact h.resetCore
  · exact renderReset_keeps_inv h hreset

/-- Settles O50: every host operation is one of the updates above, each of which keeps the invariant. -/
theorem everyStepKeepsTheInvariant : Obligations.EveryStepKeepsTheInvariant := by
  intro s t h hstep
  obtain ⟨_, rest, _, _, rfl⟩ | ⟨_, _, rfl⟩ | ⟨op, rest, _, _, hop⟩ := step_next hstep
  · exact (h.withPending rest).resetCore
  · exact h
  · exact hostStep_keeps_inv (h.withPending rest) hop

/-- Settles O49: nothing is listed and COUNT is 0, so only the open parameters need an argument. -/
theorem resetHasTheInvariant : Obligations.ResetHasTheInvariant where
  hardware := Config.hardware_wellFormed
  idle := rfl
  countInBlock := Nat.zero_le _
  waveHiForm := ⟨rfl, rfl⟩
  waveLoForm := ⟨rfl, rfl⟩
  outForm := ⟨rfl, rfl⟩
  outWidth _ _ h := by cases h
  outPrefix _ h := absurd h (Nat.not_lt_zero _)

end Sys2Proof.Machine

end

section
/-! PROOFS. REAL arithmetic: `roundReal` takes the value of the format that is nearest to the exact number, ties to even,
and the three operations hand it their exact results. -/

namespace Sys2Proof.Machine

/-! ### Numbers in units of 2^t -/

/-- From units of 2^t back to the number. -/
theorem mul_zpow_sub_mul_zpow (a : ℚ) (e t : Int) : a * 2 ^ (e - t) * 2 ^ t = a * 2 ^ e := by
  rw [mul_assoc, ← zpow_add₀ two_ne_zero, sub_add_cancel]

theorem two_zpow_pos (t : Int) : (0 : ℚ) < 2 ^ t := zpow_pos two_pos t

theorem cast_mul_two_pow_toNat (m : Nat) {e t : Int} (h : t ≤ e) :
    ((m * 2 ^ (e - t).toNat : Nat) : ℚ) = m * 2 ^ (e - t) := by
  rw [Nat.cast_mul, Nat.cast_pow, Nat.cast_ofNat, ← zpow_natCast, Int.toNat_of_nonneg (sub_nonneg.2 h)]

/-! ### Rounding to the nearest integer -/

/-- The integer q is the number u rounded to nearest, a tie to the even one. -/
structure IsNearestEven (u : ℚ) (q : Nat) : Prop where
  half : |u - q| ≤ 1 / 2
  tie : |u - q| = 1 / 2 → q % 2 = 0

theorem isNearestEven_of_le_half {k : Nat} {r : ℚ} (hr : 0 ≤ r) (hhalf : r ≤ 1 / 2) (htie : r = 1 / 2 → k % 2 = 0) :
    IsNearestEven (k + r) k := by
  constructor <;> rwa [add_sub_cancel_left, abs_of_nonneg hr]

theorem isNearestEven_of_half_le {k : Nat} {r : ℚ} (hr : r ≤ 1) (hhalf : 1 / 2 ≤ r) (htie : r = 1 / 2 → k % 2 = 1) :
    IsNearestEven (k + r) (k + 1) := by
  constructor <;> rw [Nat.cast_succ, add_sub_add_left_eq_sub, abs_of_nonpos (sub_nonpos.2 hr)]
  · grind
  · intro h
    have := htie (by grind)
    omega

theorem nearestEven_spec (m d : Nat) : IsNearestEven ((m : ℚ) / 2 ^ d) (nearestEven m d) := by
  have hP : (0 : ℚ) < 2 ^ d := pow_pos two_pos d
  have hm : (m : ℚ) / 2 ^ d = (m / 2 ^ d : Nat) + (m % 2 ^ d : Nat) / 2 ^ d := by
    rw [eq_comm, ← eq_sub_iff_add_eq', div_eq_iff hP.ne', sub_mul, div_mul_cancel₀ _ hP.ne', eq_sub_iff_add_eq]
    exact_mod_cast Nat.mod_add_div' m (2 ^ d)
  have htie : ((m % 2 ^ d : Nat) : ℚ) / 2 ^ d = 1 / 2 → 2 * (m % 2 ^ d) = 2 ^ d := by
    rw [div_eq_div_iff hP.ne' two_ne_zero, one_mul, mul_comm]
    exact_mod_cast id
  rw [hm]
  unfold nearestEven
  split
  · rename_i hup
    refine isNearestEven_of_half_le ?_ ?_ fun h => by have := htie h; omega
    · rw [div_le_one hP]
      exact_mod_cast (Nat.mod_lt m (Nat.two_pow_pos d)).le
    · rw [div_le_div_iff₀ two_pos hP, one_mul, mul_comm]
      exact_mod_cast hup.elim Nat.le_of_lt fun h => h.1.ge
  · rename_i hdown
    refine isNearestEven_of_le_half (div_nonneg (Nat.cast_nonneg _) hP.le) ?_ fun h => by have := htie h; omega
    rw [div_le_div_iff₀ hP two_pos, one_mul, mul_comm]
    exact_mod_cast (by omega : 2 * (m % 2 ^ d) ≤ 2 ^ d)

theorem inUnits_spec (m : Nat) (e t : Int) : IsNearestEven ((m : ℚ) * 2 ^ (e - t)) (inUnits m e t) := by
  unfold inUnits
  split
  · rename_i h
    rw [← cast_mul_two_pow_toNat m h]
    exact ⟨by simp, by simp⟩
  · have h : (m : ℚ) * 2 ^ (e - t) = m / 2 ^ (t - e).toNat := by
      rw [div_eq_mul_inv, ← zpow_natCast, ← zpow_neg, Int.toNat_of_nonneg (by omega), neg_sub]
    rw [h]
    exact nearestEven_spec m _

/-- No integer is nearer to u than the one u is rounded to, nor is anything below an integer that u reaches. -/
theorem IsNearestEven.nearest {u ξ : ℚ} {q : Nat} (h : IsNearestEven u q)
    (hξ : ∃ k : ℤ, ξ = k ∨ ξ < k ∧ k ≤ u) : |u - q| ≤ |u - ξ| ∧ (|u - q| = |u - ξ| → q = ξ ∨ q % 2 = 0) := by
  obtain ⟨hhalf, htie⟩ := h
  obtain ⟨k, hk⟩ := hξ
  have hinteger : |u - q| ≤ |u - k| ∧ (|u - q| = |u - k| → (q : ℚ) = k ∨ q % 2 = 0) := by
    rcases eq_or_ne (q : ℤ) k with rfl | hne
    · simp
    · have hone : (1 : ℚ) ≤ |(q : ℚ) - k| := by exact_mod_cast Int.one_le_abs (sub_ne_zero.2 hne)
      have htri : |(q : ℚ) - k| ≤ |u - q| + |u - k| := by
        rw [abs_sub_comm u (q : ℚ)]; exact abs_sub_le _ _ _
      exact ⟨by grind, fun heq => .inr (htie (by grind))⟩
  rcases hk with rfl | ⟨hlt, hle⟩
  · exact hinteger
  · have hfar : |u - k| < |u - ξ| := by
      rw [abs_of_nonneg (by grind), abs_of_nonneg (by grind)]; grind
    have hnearer : |u - q| < |u - ξ| := hinteger.1.trans_lt hfar
    exact ⟨hnearer.le, fun heq => absurd heq hnearer.ne⟩

/-- Short of an even n, only a number below n - 1/2 is rounded. -/
theorem IsNearestEven.sub_half_le_iff {u : ℚ} {q n : Nat} (h : IsNearestEven u q) (hn : n % 2 = 0) (hle : q ≤ n) :
    (n : ℚ) - 1 / 2 ≤ u ↔ q = n := by
  obtain ⟨hlo, hhi⟩ := abs_le.1 h.half
  constructor
  · refine fun hu => hle.eq_of_not_lt fun hlt => ?_
    have hsucc : (q : ℚ) + 1 ≤ n := by exact_mod_cast hlt
    have heven := h.tie (le_antisymm h.half (le_trans (by grind) (le_abs_self _)))
    have hn1 : n = q + 1 := by exact_mod_cast (by grind : (n : ℚ) = q + 1)
    omega
  · rintro rfl
    grind

/-! ### The units of a result -/

/-- In the units of a result, its exact magnitude is below 2^prec, and at least half of that unless the result is
subnormal. -/
theorem targetExp_magnitude (fmt : RealFmt) {m : Nat} (e : Int) (hm : m ≠ 0) :
    (m : ℚ) * 2 ^ (e - targetExp fmt m e) < 2 ^ prec fmt ∧
      (targetExp fmt m e = minExp fmt ∨ (2 : ℚ) ^ (prec fmt - 1) ≤ m * 2 ^ (e - targetExp fmt m e)) := by
  obtain ⟨hlen, hlo, hhi⟩ := bitLength_spec hm
  have hprec := prec_pos fmt
  constructor
  · calc (m : ℚ) * 2 ^ (e - targetExp fmt m e)
        < 2 ^ bitLength m * 2 ^ (e - targetExp fmt m e) :=
          mul_lt_mul_of_pos_right (by exact_mod_cast hhi) (two_zpow_pos _)
      _ = 2 ^ (bitLength m + (e - targetExp fmt m e)) := by rw [zpow_add₀ two_ne_zero, zpow_natCast]
      _ ≤ 2 ^ (prec fmt : ℤ) := zpow_le_zpow_right₀ one_le_two (by simp only [targetExp]; omega)
      _ = 2 ^ prec fmt := zpow_natCast _ _
  · rcases eq_or_ne (targetExp fmt m e) (minExp fmt) with hsub | hnormal
    · exact .inl hsub
    · right
      calc (2 : ℚ) ^ (prec fmt - 1) = 2 ^ ((prec fmt - 1 : Nat) : ℤ) := (zpow_natCast _ _).symm
        _ = 2 ^ ((bitLength m - 1 : Nat) + (e - targetExp fmt m e)) := by
          congr 1; simp only [targetExp] at hnormal ⊢; omega
        _ = 2 ^ (bitLength m - 1) * 2 ^ (e - targetExp fmt m e) := by rw [zpow_add₀ two_ne_zero, zpow_natCast]
        _ ≤ m * 2 ^ (e - targetExp fmt m e) :=
          mul_le_mul_of_nonneg_right (by exact_mod_cast hlo) (two_zpow_pos _).le

/-- A finite value of the format is a whole number of any units no finer than the subnormals', unless the units are
too coarse for it, and then it is below 2^(prec - 1) of them. -/
theorem canonical_in_units {fmt : RealFmt} {neg : Bool} {m : Nat} {e t : Int}
    (h : (RealVal.fin neg m e).canonical fmt) :
    (∃ k : Nat, (m : ℚ) * 2 ^ (e - t) = k) ∨
      (minExp fmt < t ∧ (m : ℚ) * 2 ^ (e - t) < 2 ^ (prec fmt - 1)) := by
  obtain ⟨hm, hmin, _, _⟩ := h
  have hprec := prec_pos fmt
  rcases le_or_gt t e with hle | hlt
  · exact .inl ⟨_, (cast_mul_two_pow_toNat m hle).symm⟩
  · refine .inr ⟨by omega, ?_⟩
    calc (m : ℚ) * 2 ^ (e - t) < 2 ^ prec fmt * 2 ^ (e - t) :=
          mul_lt_mul_of_pos_right (by exact_mod_cast hm) (two_zpow_pos _)
      _ = 2 ^ (prec fmt + (e - t)) := by rw [zpow_add₀ two_ne_zero, zpow_natCast]
      _ ≤ 2 ^ ((prec fmt - 1 : Nat) : ℤ) := zpow_le_zpow_right₀ one_le_two (by omega)
      _ = 2 ^ (prec fmt - 1) := zpow_natCast _ _

/-- A sign as a factor. -/
def signFactor (neg : Bool) : ℚ := if neg then -1 else 1

theorem signFactor_eq (neg : Bool) : signFactor neg = 1 ∨ signFactor neg = -1 := by
  cases neg <;> simp [signFactor]

theorem signFactor_mul_self (neg : Bool) : signFactor neg * signFactor neg = 1 := by
  rcases signFactor_eq neg with h | h <;> simp [h]

theorem abs_signFactor_mul (neg : Bool) (a : ℚ) : |signFactor neg * a| = |a| := by
  rcases signFactor_eq neg with h | h <;> simp [h]

/-- A positive magnitude carries its sign. -/
theorem decide_signFactor_mul_neg (neg : Bool) {a : ℚ} (ha : 0 < a) : decide (signFactor neg * a < 0) = neg := by
  cases neg with
  | false => simpa [signFactor] using ha.le
  | true => simpa [signFactor] using ha

theorem signFactor_bne (a b : Bool) : signFactor (a != b) = signFactor a * signFactor b := by
  cases a <;> cases b <;> simp [signFactor]

theorem signFactor_mul_natAbs (i : Int) : signFactor (decide (i < 0)) * i.natAbs = i := by
  rw [Nat.cast_natAbs]
  rcases lt_or_ge i 0 with h | h
  · simp [signFactor, h, abs_of_neg h]
  · simp [signFactor, h.not_gt, abs_of_nonneg h]

theorem value_fin (neg : Bool) (m : Nat) (e : Int) :
    (RealVal.fin neg m e).value = some (signFactor neg * (m * (2 : ℚ) ^ e)) := by
  simp only [RealVal.value, signFactor, mul_assoc]

/-- Only a finite value stands for a number. -/
theorem eq_fin_of_value {a : RealVal} {x : ℚ} (h : a.value = some x) :
    ∃ neg m e, a = .fin neg m e ∧ x = signFactor neg * (m * 2 ^ e) := by
  cases a with
  | nan => cases h
  | inf _ => cases h
  | fin neg m e => rw [value_fin] at h; cases h; exact ⟨_, _, _, rfl, rfl⟩

/-- A value of the format in units of 2^t, of either sign: an integer, or below 2^(prec - 1) where the units are coarser
than the subnormals'. -/
theorem value_in_units {fmt : RealFmt} {z : RealVal} {v : ℚ} (neg : Bool) (t : Int) (hz : z.canonical fmt)
    (hv : z.value = some v) :
    ∃ ξ : ℚ, v = signFactor neg * (ξ * 2 ^ t) ∧
      ((∃ k : ℤ, ξ = k) ∨ (minExp fmt < t ∧ ξ < 2 ^ (prec fmt - 1))) := by
  obtain ⟨neg', m, e, rfl, rfl⟩ := eq_fin_of_value hv
  refine ⟨signFactor (neg != neg') * (m * 2 ^ (e - t)), ?_, ?_⟩
  · rw [mul_assoc (signFactor _) (_ * _), mul_zpow_sub_mul_zpow, signFactor_bne, mul_assoc (signFactor neg),
      ← mul_assoc (signFactor neg) (signFactor neg), signFactor_mul_self, one_mul]
  · obtain ⟨k, hk⟩ | ⟨hlt, hsmall⟩ := canonical_in_units (t := t) hz
    · left
      rw [hk]
      rcases signFactor_eq (neg != neg') with h | h <;> rw [h]
      · exact ⟨k, one_mul _⟩
      · exact ⟨-k, by simp⟩
    · refine .inr ⟨hlt, (le_abs_self _).trans_lt ?_⟩
      rwa [abs_signFactor_mul, abs_of_nonneg (mul_nonneg (Nat.cast_nonneg m) (two_zpow_pos _).le)]

/-! ### Overflow -/

/-- A significand q in units of 2^t is past the largest finite value. -/
def Overflows (fmt : RealFmt) (q : Nat) (t : Int) : Prop := maxExp fmt < t ∨ t = maxExp fmt ∧ q = 2 ^ prec fmt

theorem packRange_of_overflows {fmt : RealFmt} {q : Nat} {t : Int} (neg : Bool) (h : Overflows fmt q t) :
    packRange fmt neg q t = .inf neg := by
  unfold packRange
  rcases h with h | ⟨rfl, rfl⟩
  · rw [if_pos h, if_pos (show maxExp fmt < t + 1 by omega), ite_self]
  · rw [if_pos rfl, if_pos (Int.lt_succ _)]

/-- Short of overflow the packed value is the one given, its significand even where the given one is. -/
theorem packRange_of_not_overflows {fmt : RealFmt} {q : Nat} {t : Int} (neg : Bool) (h : ¬ Overflows fmt q t) :
    ∃ m e, packRange fmt neg q t = .fin neg m e ∧ (m : ℚ) * 2 ^ e = q * 2 ^ t ∧ (q % 2 = 0 → m % 2 = 0) := by
  have ht : t ≤ maxExp fmt ∧ (t = maxExp fmt → q ≠ 2 ^ prec fmt) := by
    unfold Overflows at h; exact ⟨by omega, fun h1 h2 => h (.inr ⟨h1, h2⟩)⟩
  obtain ⟨hle, hcarry⟩ := ht
  unfold packRange
  by_cases hq : q = 2 ^ prec fmt
  · have hlt : ¬ maxExp fmt < t + 1 := fun hlt => hcarry (by omega) hq
    rw [if_pos hq, if_neg hlt]
    refine ⟨_, _, rfl, ?_, fun _ => by cases fmt <;> rfl⟩
    rw [hq, two_pow_prec, zpow_add_one₀ two_ne_zero, Nat.cast_mul, Nat.cast_ofNat, mul_comm ((2 : ℚ) ^ t), ← mul_assoc,
      mul_comm _ (2 : ℚ)]
  · rw [if_neg hq, if_neg (by omega)]
    exact ⟨_, _, rfl, rfl, id⟩

/-- A full significand at one exponent is at most half of one at a greater. -/
theorem two_pow_prec_mul_zpow_le (fmt : RealFmt) {s t : Int} (h : s < t) :
    (2 : ℚ) ^ prec fmt * 2 ^ s ≤ 2 ^ (prec fmt - 1) * 2 ^ t := by
  rw [← pow_sub_one_mul (prec_pos fmt).ne' (2 : ℚ), mul_assoc, mul_comm 2, ← zpow_add_one₀ two_ne_zero]
  exact mul_le_mul_of_nonneg_left (zpow_le_zpow_right₀ one_le_two h) (pow_pos two_pos _).le

theorem overflowBound_bounds (fmt : RealFmt) :
    (2 : ℚ) ^ (prec fmt - 1) * 2 ^ maxExp fmt ≤ overflowBound fmt ∧
      overflowBound fmt < 2 ^ prec fmt * 2 ^ maxExp fmt := by
  have hM := two_zpow_pos (maxExp fmt)
  have hone : (1 : ℚ) ≤ 2 ^ (prec fmt - 1) := one_le_pow₀ one_le_two
  have htwo : (2 : ℚ) ^ (prec fmt - 1) * 2 = 2 ^ prec fmt := pow_sub_one_mul (prec_pos fmt).ne' 2
  exact ⟨mul_le_mul_of_nonneg_right (by grind) hM.le, mul_lt_mul_of_pos_right (by grind) hM⟩

/-- A magnitude of u units of 2^t reaches the overflow bound where its rounding q overflows. -/
theorem overflowBound_le_iff {fmt : RealFmt} {u : ℚ} {q : Nat} {t : Int} (hq : IsNearestEven u q)
    (hle : q ≤ 2 ^ prec fmt) (hlt : u < 2 ^ prec fmt) (hlo : t = minExp fmt ∨ (2 : ℚ) ^ (prec fmt - 1) ≤ u) :
    overflowBound fmt ≤ u * 2 ^ t ↔ Overflows fmt q t := by
  have hmax := minExp_lt_maxExp fmt
  obtain ⟨hbound, hbound'⟩ := overflowBound_bounds fmt
  have hT := two_zpow_pos t
  unfold Overflows
  rcases lt_trichotomy t (maxExp fmt) with h | rfl | h
  · have hsmall : u * 2 ^ t < overflowBound fmt :=
      calc u * 2 ^ t < 2 ^ prec fmt * 2 ^ t := mul_lt_mul_of_pos_right hlt hT
        _ ≤ 2 ^ (prec fmt - 1) * 2 ^ maxExp fmt := two_pow_prec_mul_zpow_le fmt h
        _ ≤ overflowBound fmt := hbound
    exact iff_of_false hsmall.not_ge (by omega)
  · have htop := hq.sub_half_le_iff (by cases fmt <;> rfl) hle
    rw [overflowBound, mul_le_mul_iff_left₀ hT, ← htop]
    simp
  · have hbig : overflowBound fmt ≤ u * 2 ^ t :=
      calc overflowBound fmt ≤ 2 ^ prec fmt * 2 ^ maxExp fmt := hbound'.le
        _ ≤ 2 ^ (prec fmt - 1) * 2 ^ t := two_pow_prec_mul_zpow_le fmt h
        _ ≤ u * 2 ^ t := mul_le_mul_of_nonneg_right (hlo.resolve_left (by omega)) hT.le
    exact iff_of_true hbig (.inl h)

/-! ### One rounding -/

theorem overflowBound_pos (fmt : RealFmt) : 0 < overflowBound fmt :=
  lt_of_lt_of_le (mul_pos (pow_pos two_pos _) (two_zpow_pos _)) (overflowBound_bounds fmt).1

/-- Either zero is the number 0 rounded. -/
theorem zero_roundedTo (fmt : RealFmt) (neg : Bool) : RoundedTo fmt 0 (RealVal.zero fmt neg) := by
  refine ⟨zero_canonical fmt neg, ?_⟩
  rw [if_neg (by rw [abs_zero, not_le]; exact overflowBound_pos fmt)]
  refine ⟨neg, 0, minExp fmt, rfl, fun h => absurd rfl h, fun z _ v v' hv _ => ?_⟩
  have h0 : v = 0 := by simpa [RealVal.zero, value_fin] using hv.symm
  subst h0
  simp

/-- No value of the format is nearer to u units of 2^t than the integer u is rounded to. -/
theorem IsNearestEven.nearest_value {fmt : RealFmt} {u v : ℚ} {q : Nat} {t : Int} {z : RealVal} (hq : IsNearestEven u q)
    (neg : Bool) (hlo : t = minExp fmt ∨ (2 : ℚ) ^ (prec fmt - 1) ≤ u) (hz : z.canonical fmt) (hv : z.value = some v) :
    |signFactor neg * (u * 2 ^ t) - signFactor neg * (q * 2 ^ t)| ≤ |signFactor neg * (u * 2 ^ t) - v| ∧
      (|signFactor neg * (u * 2 ^ t) - signFactor neg * (q * 2 ^ t)| = |signFactor neg * (u * 2 ^ t) - v| →
        signFactor neg * (q * 2 ^ t) = v ∨ q % 2 = 0) := by
  have hT := two_zpow_pos t
  obtain ⟨ξ, rfl, hξ⟩ := value_in_units neg t hz hv
  have hcandidate : ∃ k : ℤ, ξ = k ∨ ξ < k ∧ k ≤ u := by
    obtain ⟨k, hk⟩ | ⟨hfine, hsmall⟩ := hξ
    · exact ⟨k, .inl hk⟩
    · exact ⟨2 ^ (prec fmt - 1), .inr ⟨by exact_mod_cast hsmall, by exact_mod_cast hlo.resolve_left hfine.ne'⟩⟩
  obtain ⟨hnear, htie⟩ := hq.nearest hcandidate
  rw [← mul_sub, ← mul_sub, ← sub_mul, ← sub_mul, abs_signFactor_mul, abs_signFactor_mul, abs_mul, abs_mul,
    abs_of_pos hT, mul_le_mul_iff_left₀ hT, mul_left_inj' hT.ne']
  exact ⟨hnear, fun heq => (htie heq).imp_left fun h => by rw [h]⟩

/-- Packing the nearest integer rounds the magnitude: to the infinity past the overflow bound, else to the nearest value. -/
theorem packRange_roundedTo {fmt : RealFmt} {u : ℚ} {q : Nat} {t : Int} (neg : Bool) (hq : IsNearestEven u q)
    (hcan : (packRange fmt neg q t).canonical fmt) (hle : q ≤ 2 ^ prec fmt) (hpos : 0 < u) (hlt : u < 2 ^ prec fmt)
    (hlo : t = minExp fmt ∨ (2 : ℚ) ^ (prec fmt - 1) ≤ u) :
    RoundedTo fmt (signFactor neg * (u * 2 ^ t)) (packRange fmt neg q t) := by
  have hmag := mul_pos hpos (two_zpow_pos t)
  have hsign := decide_signFactor_mul_neg neg hmag
  have hover := overflowBound_le_iff hq hle hlt hlo
  refine ⟨hcan, ?_⟩
  rw [abs_signFactor_mul, abs_of_pos hmag]
  by_cases ho : Overflows fmt q t
  · rw [if_pos (hover.2 ho), packRange_of_overflows neg ho, hsign]
  · rw [if_neg (mt hover.1 ho)]
    obtain ⟨m, e, hy, hval, heven⟩ := packRange_of_not_overflows neg ho
    refine ⟨neg, m, e, hy, fun _ => hsign.symm, fun z hz v v' hv hv' => ?_⟩
    rw [hy, value_fin, hval, Option.some.injEq] at hv
    obtain ⟨hnear, htie⟩ := hq.nearest_value neg hlo hz hv'
    rw [← hv]
    exact ⟨hnear, fun heq => (htie heq).imp_right heven⟩

/-- `roundReal` rounds the exact value it is given to nearest, ties to even (R9). -/
theorem roundReal_roundedTo (fmt : RealFmt) (neg : Bool) (m : Nat) (e : Int) :
    RoundedTo fmt (signFactor neg * (m * 2 ^ e)) (roundReal fmt neg m e) := by
  rcases eq_or_ne m 0 with rfl | hm
  · have h0 : signFactor neg * (((0 : Nat) : ℚ) * 2 ^ e) = 0 := by simp
    rw [h0, roundReal, if_pos rfl]
    exact zero_roundedTo fmt neg
  · have hcan := roundReal_canonical fmt neg m e
    rw [roundReal, if_neg hm] at hcan ⊢
    obtain ⟨hle, _⟩ := inUnits_target fmt e hm
    obtain ⟨hlt, hlo⟩ := targetExp_magnitude fmt e hm
    have hpos := mul_pos (Nat.cast_pos.2 (Nat.pos_of_ne_zero hm)) (two_zpow_pos (e - targetExp fmt m e))
    rw [← mul_zpow_sub_mul_zpow _ e (targetExp fmt m e)]
    exact packRange_roundedTo neg (inUnits_spec m e _) hcan hle hpos hlt hlo

/-! ### The three operations -/

/-- An integer in units of 2^e, rounded. -/
theorem roundReal_int_roundedTo (fmt : RealFmt) (i e : Int) :
    RoundedTo fmt (i * 2 ^ e) (roundReal fmt (decide (i < 0)) i.natAbs e) := by
  have h := roundReal_roundedTo fmt (decide (i < 0)) i.natAbs e
  rwa [← mul_assoc, signFactor_mul_natAbs] at h

theorem realOfInt_roundedTo (fmt : RealFmt) (i : Int) : RoundedTo fmt i (realOfInt fmt i) := by
  simpa [realOfInt] using roundReal_int_roundedTo fmt i 0

theorem mulReal_roundedTo (fmt : RealFmt) {a b : RealVal} {x y : ℚ} (ha : a.value = some x) (hb : b.value = some y) :
    RoundedTo fmt (x * y) (mulReal fmt a b) := by
  obtain ⟨na, m, e, rfl, rfl⟩ := eq_fin_of_value ha
  obtain ⟨nb, k, f, rfl, rfl⟩ := eq_fin_of_value hb
  have hexact : signFactor na * (m * 2 ^ e) * (signFactor nb * (k * 2 ^ f)) =
      signFactor (na != nb) * ((m * k : Nat) * 2 ^ (e + f)) := by
    rw [signFactor_bne, zpow_add₀ two_ne_zero, Nat.cast_mul, mul_mul_mul_comm, mul_mul_mul_comm (m : ℚ)]
  rw [hexact]
  exact roundReal_roundedTo fmt _ _ _

theorem cast_signed (neg : Bool) (m : Nat) : (signed neg m : ℚ) = signFactor neg * m := by
  cases neg <;> simp [signed, signFactor]

/-- The exact sum is the sum of the two values, in units of the finer operand's last bit. -/
theorem exactSum_value (a : Bool) (m : Nat) (e : Int) (b : Bool) (k : Nat) (f : Int) :
    (exactSum a m e b k f : ℚ) * 2 ^ min e f = signFactor a * (m * 2 ^ e) + signFactor b * (k * 2 ^ f) := by
  rw [exactSum, Int.cast_add, cast_signed, cast_signed, cast_mul_two_pow_toNat m (min_le_left _ _),
    cast_mul_two_pow_toNat k (min_le_right _ _), add_mul, mul_assoc (signFactor a), mul_assoc (signFactor b),
    mul_zpow_sub_mul_zpow, mul_zpow_sub_mul_zpow]

theorem exactSum_eq_zero_iff (a : Bool) (m : Nat) (e : Int) (b : Bool) (k : Nat) (f : Int) :
    exactSum a m e b k f = 0 ↔ signFactor a * (m * (2 : ℚ) ^ e) + signFactor b * (k * 2 ^ f) = 0 := by
  rw [← exactSum_value, mul_eq_zero_iff_right (two_zpow_pos _).ne', Int.cast_eq_zero]

theorem addReal_roundedTo (fmt : RealFmt) {a b : RealVal} {x y : ℚ} (ha : a.value = some x) (hb : b.value = some y) :
    RoundedTo fmt (x + y) (addReal fmt a b) := by
  obtain ⟨na, m, e, rfl, rfl⟩ := eq_fin_of_value ha
  obtain ⟨nb, k, f, rfl, rfl⟩ := eq_fin_of_value hb
  by_cases hzero : exactSum na m e nb k f = 0
  · rw [(exactSum_eq_zero_iff ..).1 hzero]
    simp only [addReal, hzero, if_true]
    exact zero_roundedTo fmt _
  · rw [← exactSum_value]
    simp only [addReal, hzero, if_false]
    exact roundReal_int_roundedTo fmt _ _

/-- A zero factor gives the zero of the product's sign. -/
theorem mulReal_zero (fmt : RealFmt) (a b : Bool) {m n : Nat} (e f : Int) (h : m = 0 ∨ n = 0) :
    mulReal fmt (.fin a m e) (.fin b n f) = RealVal.zero fmt (a != b) :=
  if_pos (Nat.mul_eq_zero.2 h)

/-- A sum that is exactly zero is +0 unless both operands are negative. -/
theorem addReal_cancel (fmt : RealFmt) {a b : Bool} {m n : Nat} {e f : Int} {x y : ℚ}
    (hx : (RealVal.fin a m e).value = some x) (hy : (RealVal.fin b n f).value = some y) (h : x + y = 0) :
    addReal fmt (.fin a m e) (.fin b n f) = RealVal.zero fmt (a && b) := by
  rw [value_fin, Option.some.injEq] at hx hy
  subst hx hy
  exact if_pos ((exactSum_eq_zero_iff ..).2 h)

theorem mulReal_fin_inf (fmt : RealFmt) (a b : Bool) (n : Nat) (f : Int) :
    mulReal fmt (.fin b n f) (.inf a) = if n = 0 then .nan else .inf (a != b) := by
  rw [mulReal, bne_comm]

theorem mulReal_nan_right (fmt : RealFmt) (v : RealVal) : mulReal fmt v .nan = .nan := by cases v <;> rfl

theorem addReal_nan_right (fmt : RealFmt) (v : RealVal) : addReal fmt v .nan = .nan := by cases v <;> rfl

/-- Settles O27: each operation hands its exact value to the one rounding, which takes the nearest value of the format. -/
theorem realArithmeticRoundsToNearestEven : Obligations.RealArithmeticRoundsToNearestEven := by
  intro fmt
  refine ⟨fun a b x y ha hb => ⟨mulReal_roundedTo fmt ha hb, addReal_roundedTo fmt ha hb⟩, realOfInt_roundedTo fmt,
    fun a b m n e f => ⟨mulReal_zero fmt a b e f, fun _ _ => addReal_cancel fmt, rfl, rfl, mulReal_fin_inf fmt a b n f,
      rfl, rfl, rfl⟩,
    fun v => ⟨rfl, mulReal_nan_right fmt v, rfl, addReal_nan_right fmt v⟩, fun _ _ _ => rfl⟩

end Sys2Proof.Machine

end

section
/-! PROOFS. The register bank: what a read gives, what a write and reset leave, and what of the state each kind of step
may change. -/

namespace Sys2Proof.Machine

/-! ### The registers by name -/

/-- STEP and the markers, the registers that a render reads and never writes (R26, R27). -/
def Reg.setup : List Reg := [.stepLo, .stepHi, .start, .end_, .loopstart, .loopend]

/-- The registers that take the word the host writes, whatever it is (R25 to R27). -/
def Reg.plain : List Reg := .phaseLo :: .phaseHi :: Reg.setup

theorem State.statusWord_eq (s : State) : s.statusWord = BitVec.ofNat 32 (s.busy.toNat + 2 * s.short.toNat) := by
  unfold State.statusWord
  cases s.busy <;> cases s.short <;> rfl

theorem State.vflagsWord_eq (s : State) : s.vflagsWord = BitVec.ofNat 32 s.hasLooped.toNat := by
  unfold State.vflagsWord
  cases s.hasLooped <;> rfl

theorem State.vflagsWord_inj {s t : State} (h : t.vflagsWord = s.vflagsWord) : t.hasLooped = s.hasLooped := by
  rw [State.vflagsWord_eq, State.vflagsWord_eq] at h
  revert h
  cases s.hasLooped <;> cases t.hasLooped <;> decide

@[simp] theorem State.readReg_withPort (s : State) (r : Reg) (ops : List HostOp) (a : Option Answer) :
    State.readReg { s with pending := ops, answer := a } r = s.readReg r := by
  cases r <;> rfl

@[simp] theorem State.readReg_writeWave (s : State) (r : Reg) (i : Nat) (hi : BitVec 16) (lo : Option (BitVec 8)) :
    (s.writeWave i hi lo).readReg r = s.readReg r := by
  cases r <;> rfl

theorem State.readReg_renderEnd (s : State) (k : Kernel) (w : Work) {r : Reg} (hr : r ∈ Reg.setup) :
    (s.renderEnd k w).readReg r = s.readReg r := by
  simp only [Reg.setup, List.mem_cons, List.not_mem_nil, or_false] at hr
  rcases hr with rfl | rfl | rfl | rfl | rfl | rfl <;> rfl

theorem State.readReg_resetCore (s : State) {r : Reg} (hr : r ≠ .capacity) : s.resetCore.readReg r = 0 := by
  cases r
  case capacity => contradiction
  case status => exact State.statusWord_eq _
  case vflags => exact State.vflagsWord_eq _
  all_goals rfl

/-! ### What a write of a register leaves -/

/-- VFLAGS takes 0 and 1, the words with the reserved bits clear (R24, R80). -/
theorem writeReg_vflags_eq_next {d : Word} {s t : State} :
    writeReg .vflags d s = .next t ↔ d.toNat < 2 ∧ t = { s with hasLooped := decide (d.toNat = 1) } := by
  have hres : vflagsReserved d = false ↔ d.toNat < 2 := by
    rw [vflagsReserved, bne_eq_false_iff_eq, ← BitVec.toNat_inj, BitVec.extractLsb'_toNat, Nat.shiftRight_eq_div_pow]
    have := d.isLt
    change d.toNat / 2 ^ 1 % 2 ^ 31 = 0 ↔ d.toNat < 2
    omega
  rw [← hres]
  unfold writeReg
  cases h : vflagsReserved d
  · have hd := hres.1 h
    have hlatch : vflagsLatch d = decide (d.toNat = 1) := by
      simp [vflagsLatch, BitVec.getLsbD, Nat.testBit_zero, Nat.mod_eq_of_lt hd]
    simp [hlatch, eq_comm]
  · simp [raise]

/-- A register other than CMD reads after a write as the word written, where the write is not ignored. -/
theorem writeReg_readReg_same {r : Reg} {d : Word} {s t : State} (hr : r ≠ .cmd) (h : writeReg r d s = .next t) :
    t = s ∨ t.readReg r = d := by
  cases r
  case cmd => contradiction
  case status | count | capacity => cases h; exact .inl rfl
  case vflags =>
    obtain ⟨hd, rfl⟩ := writeReg_vflags_eq_next.1 h
    right
    rw [State.readReg, State.vflagsWord_eq]
    obtain rfl | rfl : d = 0 ∨ d = 1 := by bv_omega
    · rfl
    · rfl
  all_goals cases h; exact .inr rfl

/-- A write of a register other than CMD is seen in no other register. -/
theorem writeReg_readReg_other {r r' : Reg} {d : Word} {s t : State} (hr : r ≠ .cmd) (hne : r' ≠ r)
    (h : writeReg r d s = .next t) : t.readReg r' = s.readReg r' := by
  cases r
  case cmd => contradiction
  case vflags =>
    obtain ⟨_, rfl⟩ := writeReg_vflags_eq_next.1 h
    cases r' <;> trivial
  all_goals
    cases h
    cases r' <;> trivial

/-- The register that a write of a register other than CMD changes is the one written, and reads as the word. -/
theorem writeReg_changed {r r' : Reg} {d : Word} {s t : State} (hr : r ≠ .cmd) (h : writeReg r d s = .next t)
    (hne : t.readReg r' ≠ s.readReg r') : r' = r ∧ t.readReg r' = d := by
  obtain rfl : r' = r := by
    by_contra hother
    exact hne (writeReg_readReg_other hr hother h)
  exact ⟨rfl, (writeReg_readReg_same hr h).resolve_left fun ht => hne (by rw [ht])⟩

/-- A write of a register other than CMD leaves everything but the register words and the latch alone. -/
theorem writeReg_registerWrite {r : Reg} {d : Word} {s t : State} (hr : r ≠ .cmd) (h : writeReg r d s = .next t) :
    RegisterWrite s t := by
  obtain ⟨hcmd, _⟩ | ⟨_, hwrite, _⟩ := writeReg_next h
  · exact absurd hcmd hr
  · exact hwrite

/-- A write of a register that takes any word goes on, and the register reads as that word. -/
theorem writeReg_plain {r : Reg} (hr : r ∈ Reg.plain) (d : Word) (s : State) :
    ∃ t, writeReg r d s = .next t ∧ t.readReg r = d := by
  simp only [Reg.plain, Reg.setup, List.mem_cons, List.not_mem_nil, or_false] at hr
  rcases hr with rfl | rfl | rfl | rfl | rfl | rfl | rfl | rfl <;> exact ⟨_, rfl, rfl⟩

/-! ### A step with one operation pending -/

theorem step_eq_hostStep {s : State} {op : HostOp} {rest : List HostOp} (hf : s.fault = none)
    (hp : s.pending = op :: rest) : step s = hostStep op { s with pending := rest } := by
  simp only [step, hf, hostTurn, hp]

theorem step_pending {s : State} (hf : s.fault = none) (op : HostOp) (rest : List HostOp) :
    step { s with pending := op :: rest } = hostStep op { s with pending := rest } :=
  step_eq_hostStep hf rfl

/-- Reset is performed in a faulted state as in any other (R220; log 2). -/
theorem step_reset {s : State} {rest : List HostOp} (hp : s.pending = .reset :: rest) :
    step s = .next { s with pending := rest }.resetCore := by
  cases hf : s.fault with
  | none => exact step_eq_hostStep hf hp
  | some f => simp only [step, hf, faultedStep, hp]

theorem hostStep_wr_offset (r : Reg) (d : Word) (s : State) : hostStep (.wr r.offset d) s = writeReg r d s := by
  simp only [hostStep, hostWrite, Reg.ofOffset_offset]

theorem readsAs_readReg (s : State) (r : Reg) : ReadsAs s r.offset (s.readReg r) := by
  simp only [ReadsAs, hostRead, Reg.ofOffset_offset]

/-- The offsets that read as a word are the thirteen registers' (R20, R80). -/
theorem readsAs_iff {s : State} {offset : Nat} {v : Word} :
    ReadsAs s offset v ↔ ∃ r : Reg, r.offset = offset ∧ s.readReg r = v := by
  constructor
  · intro h
    unfold ReadsAs hostRead at h
    split at h
    · cases h
    · rename_i r hr
      simp only [Host.Outcome.next.injEq, State.mk.injEq, Option.some.injEq, Answer.reg.injEq, true_and, and_true] at h
      exact ⟨r, Reg.offset_of_ofOffset hr, h⟩
  · rintro ⟨r, rfl, rfl⟩
    exact readsAs_readReg s r

/-! ### The register port -/

theorem step_wr_offset {s : State} (hf : s.fault = none) (r : Reg) (d : Word) (rest : List HostOp) :
    step { s with pending := .wr r.offset d :: rest } = writeReg r d { s with pending := rest } :=
  (step_pending hf _ rest).trans (hostStep_wr_offset r d _)

/-- Settles O14: 0 and 1 are the words VFLAGS takes. -/
theorem hostWritesTheHasLoopedLatch : Obligations.HostWritesTheHasLoopedLatch := by
  intro s d rest hf hd
  exact (step_wr_offset hf .vflags d rest).trans (writeReg_vflags_eq_next.2 ⟨hd, rfl⟩)

/-- Settles O11: each word is what `readReg` gives at its register's offset. -/
theorem registerReadsGiveTheirFields : Obligations.RegisterReadsGiveTheirFields := by
  intro s
  have hread := readsAs_readReg s
  refine ⟨hread .cmd, s.statusWord_eq ▸ hread .status, hread .count, s.vflagsWord_eq ▸ hread .vflags, hread .phaseLo,
    hread .phaseHi, hread .stepLo, hread .stepHi, hread .start, hread .end_, hread .loopstart, hread .loopend,
    hread .capacity, fun offset v rest hf hv => ?_⟩
  obtain ⟨r, rfl, rfl⟩ := readsAs_iff.1 hv
  rw [step_pending hf, ← s.readReg_withPort r rest s.answer]
  exact readsAs_readReg { s with pending := rest } r

/-- Settles O12: a plain register takes the word, no other register sees it, `RegisterWrite` says what is kept. -/
theorem registerWriteIsReadBack : Obligations.RegisterWriteIsReadBack := by
  intro s d rest offset hf hmem
  obtain ⟨r, hr, rfl⟩ : ∃ r ∈ Reg.plain, r.offset = offset := List.mem_map.1 hmem
  have hcmd : r ≠ .cmd := by rintro rfl; revert hr; decide
  obtain ⟨t, ht, hsame⟩ := writeReg_plain hr d { s with pending := rest }
  have hkept := writeReg_registerWrite hcmd ht
  refine ⟨t, (step_wr_offset hf r d rest).trans ht, hkept.pending, hkept.fault.trans hf, hsame ▸ readsAs_readReg t r,
    fun other v hne hv => ?_, hkept.out, hkept.waveHi, hkept.waveLo, hkept.hw⟩
  obtain ⟨r', rfl, rfl⟩ := readsAs_iff.1 hv
  have hother := writeReg_readReg_other hcmd (fun h => hne (congrArg Reg.offset h)) ht
  rw [State.readReg_withPort] at hother
  exact hother ▸ readsAs_readReg t r'

theorem State.resetCore_registersAtReset (s : State) : RegistersAtReset s.resetCore := by
  refine ⟨fun offset hmem => ?_, readsAs_readReg s.resetCore .capacity⟩
  obtain ⟨r, hr, rfl⟩ : ∃ r ∈ Reg.all.tail.dropLast, r.offset = offset := List.mem_map.1 hmem
  rw [← s.readReg_resetCore (r := r) (by rintro rfl; revert hr; decide)]
  exact readsAs_readReg _ r

/-- Settles O10: in a faulted state or not, the step is `resetCore`, and `State.reset` is the reset of itself. -/
theorem resetGivesTheTableOfResetValues : Obligations.ResetGivesTheTableOfResetValues :=
  ⟨⟨State.reset.resetCore_registersAtReset, fun _ => rfl, rfl⟩, fun _ _ hp =>
    ⟨_, step_reset hp, rfl, State.resetCore_registersAtReset _, fun _ => rfl, rfl, rfl, rfl, rfl⟩⟩

/-! ### The latch and the setup registers in a render -/

/-- The slot loop never clears the latch's copy, and without LOOP it does not write it (R163). -/
theorem State.slotLoop_looped {s : State} {l : Latch} {left : Nat} {w e : Work} (hl : l.Sound)
    (h : s.slotLoop l left w = .done e) :
    (w.looped = true → e.looped = true) ∧ (l.loop = false → e.looped = w.looped) := by
  refine ⟨fun hw => ?_, fun hloop => ?_⟩
  · exact State.slotLoop_done (P := fun w => w.looped = true) hl (fun _ _ _ _ => rfl) (fun _ _ _ h _ _ _ => h) hw h
  · exact State.slotLoop_done (P := fun w' => w'.looped = w.looped) hl
      (fun _ _ _ h => absurd (hloop.symm.trans h) Bool.false_ne_true) (fun _ _ _ h _ _ _ => h) rfl h

/-- No command clears the latch, and a render without LOOP does not write it (R24). -/
theorem exec_looped {i : Instr} {s t : State} (h : exec i s = .next t) :
    (s.hasLooped = true → t.hasLooped = true) ∧
      ∀ k ext, i.renderOf = some (k, false, ext) → t.hasLooped = s.hasLooped := by
  obtain ⟨rfl, hnop⟩ | ⟨k, loop, ext, hi, hr⟩ := exec_cases i s
  · rw [hnop] at h
    cases h
    exact ⟨id, fun _ _ hi => by cases hi⟩
  · rw [hr] at h
    obtain ⟨incr, w, hv, _, hdone, rfl⟩ := render_eq_next h
    obtain ⟨hset, hkept⟩ := State.slotLoop_looped (hv.latch_sound k loop ext incr) hdone
    refine ⟨hset, fun k' ext' hi' => hkept ?_⟩
    rw [hi'] at hi
    cases hi
    rfl

/-- What a render that goes on keeps, whatever falls into it: the parameters, STEP, the markers, and a latch that is
set. -/
structure RenderKeeps (s t : State) : Prop where
  hw : t.hw = s.hw
  setup : ∀ r ∈ Reg.setup, t.readReg r = s.readReg r
  looped : s.hasLooped = true → t.hasLooped = true

theorem RenderKeeps.renderEnd {s : State} {k : Kernel} {loop ext : Bool} {incr : Phase} {left : Nat} {w : Work}
    (hv : ValidMarkers s) (hdone : s.slotLoop (s.latch k loop ext incr) left (s.startWork k) = .done w) :
    RenderKeeps s (s.renderEnd k w) where
  hw := rfl
  setup _ hr := s.readReg_renderEnd k w hr
  looped := (State.slotLoop_looped (hv.latch_sound k loop ext incr) hdone).1

theorem RenderKeeps.writeWave {s t : State} (h : RenderKeeps s t) (i : Nat) (hi : BitVec 16) (lo : Option (BitVec 8)) :
    RenderKeeps s (t.writeWave i hi lo) where
  hw := h.hw
  setup r hr := (t.readReg_writeWave r i hi lo).trans (h.setup r hr)
  looped := h.looped

theorem RenderKeeps.of_withPending {s t : State} {ops : List HostOp} (h : RenderKeeps { s with pending := ops } t) :
    RenderKeeps s t where
  hw := h.hw
  setup r hr := (h.setup r hr).trans (s.readReg_withPort r ops s.answer)
  looped := h.looped

/-! ### What a step may change -/

/-- The next operation writes the waveform memory, the host's or another agent's beside a command (R59; log 12). -/
def State.waveWriting (s : State) : Prop :=
  (∃ index hi lo rest, s.pending = .wave index hi lo :: rest) ∨
    ∃ w after index hi lo rest, s.pending = .issueRaced w after index hi lo :: rest

/-- What a step that goes on has done to the state, by the kind of the host's operation. -/
inductive StepEffect (s t : State) : Prop where
  /-- An idle step, NOP or a read: nothing but the model's own fields. -/
  | quiet (rest : List HostOp) (a : Option Answer) (ht : t = { s with pending := rest, answer := a })
  /-- A write of a register other than CMD. -/
  | register (r : Reg) (d : Word) (rest : List HostOp) (hr : r ≠ .cmd) (hp : s.pending = .wr r.offset d :: rest)
      (hw : writeReg r d { s with pending := rest } = .next t)
  /-- A write of the waveform memory in no render. -/
  | wave (hp : s.waveWriting) (rest : List HostOp) (i : Nat) (hi : BitVec 16) (lo : Option (BitVec 8))
      (ht : t = State.writeWave { s with pending := rest } i hi lo)
  /-- A render, with another agent's waveform write after it or not. -/
  | render (hr : s.rendering) (hk : RenderKeeps s t)
      (hwave : s.waveWriting ∨ t.waveHi = s.waveHi ∧ t.waveLo = s.waveLo)
  /-- Reset, in a render or not. -/
  | reset (hr : s.resetting) (hhw : t.hw = s.hw) (hwave : t.waveHi = s.waveHi ∧ t.waveLo = s.waveLo)

theorem exec_effect {i : Instr} {w : Word} {s t : State} {rest : List HostOp} (hp : s.pending = .wr 0x00 w :: rest)
    (hd : decode w = .ok i) (h : exec i { s with pending := rest } = .next t) : StepEffect s t := by
  obtain ⟨_, hnop⟩ | ⟨k, loop, ext, hi, hr⟩ := exec_cases i { s with pending := rest }
  · rw [hnop] at h
    cases h
    exact .quiet rest s.answer rfl
  · rw [hr] at h
    obtain ⟨incr, w', hv, _, hdone, rfl⟩ := render_eq_next h
    exact .render ⟨w, i, _, hd, hi, .inl ⟨rest, hp⟩⟩ (RenderKeeps.renderEnd hv hdone).of_withPending (.inr ⟨rfl, rfl⟩)

theorem hostStep_effect {op : HostOp} {s t : State} {rest : List HostOp} (hp : s.pending = op :: rest)
    (h : hostStep op { s with pending := rest } = .next t) : StepEffect s t := by
  rcases hostStep_next h with ⟨offset, d, i, rfl, hreg, hd, hexec⟩ | ⟨offset, d, r, rfl, hreg, hne, _, _⟩ |
    ⟨_, _, rfl, _, rfl⟩ | ⟨_, _, rfl, _, rfl⟩ | ⟨i, hi, lo, hop, _, rfl⟩ |
    ⟨w, after, index, hi, lo, i, k, loop, ext, rfl, hd, hi', hraced⟩ | ⟨hop, rfl⟩ |
    ⟨w, after, i, k, loop, ext, rfl, hd, hi, hreset⟩
  · obtain rfl := Reg.offset_of_ofOffset hreg
    exact exec_effect hp hd hexec
  · obtain rfl := Reg.offset_of_ofOffset hreg
    exact .register r d rest hne hp (hostStep_wr_offset r d _ ▸ h)
  · exact .quiet rest _ rfl
  · exact .quiet rest _ rfl
  · refine .wave ?_ rest i hi lo rfl
    obtain rfl | ⟨w, after, rfl⟩ := hop
    · exact .inl ⟨_, _, _, _, hp⟩
    · exact .inr ⟨_, _, _, _, _, _, hp⟩
  · obtain ⟨incr, w', hv, _, hdone, _, _, rfl⟩ := renderRaced_eq_next hraced
    exact .render ⟨w, i, _, hd, hi', .inr ⟨_, _, _, _, _, hp⟩⟩
      ((RenderKeeps.renderEnd hv hdone).writeWave index hi lo).of_withPending (.inl (.inr ⟨_, _, _, _, _, _, hp⟩))
  · refine .reset ⟨rest, ?_⟩ rfl ⟨rfl, rfl⟩
    obtain rfl | ⟨w, after, rfl⟩ := hop
    · exact .inl hp
    · exact .inr ⟨w, after, hp⟩
  · have hr : s.resetting := ⟨rest, .inr ⟨w, after, hp⟩⟩
    obtain ⟨_, _, _, _, _, _, rfl⟩ | ⟨_, rfl⟩ := renderReset_next hreset
    · exact .reset hr rfl ⟨rfl, rfl⟩
    · exact .reset hr rfl ⟨rfl, rfl⟩

/-- Everything a step that goes on can do, by what it keeps. -/
theorem step_effect {s t : State} (h : step s = .next t) : StepEffect s t := by
  obtain ⟨_, rest, _, hp, rfl⟩ | ⟨_, _, rfl⟩ | ⟨op, rest, _, hp, hop⟩ := step_next h
  · exact .reset ⟨rest, .inl hp⟩ rfl ⟨rfl, rfl⟩
  · exact .quiet t.pending t.answer rfl
  · exact hostStep_effect hp hop

/-- A register changes only where the host writes it, to the word written, in a render that does not keep it, or by
reset. -/
theorem StepEffect.register_changed {s t : State} (h : StepEffect s t) {r : Reg} (hne : t.readReg r ≠ s.readReg r) :
    (∃ rest, s.pending = .wr r.offset (t.readReg r) :: rest) ∨ (s.rendering ∧ r ∉ Reg.setup) ∨ s.resetting := by
  cases h with
  | quiet rest a ht =>
    subst ht
    simp at hne
  | register r' d rest hr hp hw =>
    obtain ⟨rfl, rfl⟩ := writeReg_changed hr hw (by rwa [State.readReg_withPort])
    exact .inl ⟨rest, hp⟩
  | wave hp rest i hi lo ht =>
    subst ht
    simp at hne
  | render hr hk _ => exact .inr (.inl ⟨hr, fun hmem => hne (hk.setup r hmem)⟩)
  | reset hr _ _ => exact .inr (.inr hr)

/-- The parameters of the build never change (R6, R60). -/
theorem StepEffect.hw_eq {s t : State} (h : StepEffect s t) : t.hw = s.hw := by
  cases h with
  | quiet rest a ht => rw [ht]
  | register r d rest hr hp hw => exact (writeReg_registerWrite hr hw).hw
  | wave hp rest i hi lo ht => rw [ht]; rfl
  | render hr hk _ => exact hk.hw
  | reset hr hhw _ => exact hhw

/-- COUNT, SHORT and OUT are written by renders and reset alone (R22, R23, R53). -/
theorem StepEffect.results_kept {s t : State} (h : StepEffect s t) :
    (t.count = s.count ∧ t.short = s.short ∧ t.out = s.out) ∨ s.rendering ∨ s.resetting := by
  cases h with
  | quiet rest a ht => subst ht; exact .inl ⟨rfl, rfl, rfl⟩
  | register r d rest hr hp hw =>
    have hkept := writeReg_registerWrite hr hw
    exact .inl ⟨hkept.count, hkept.short, hkept.out⟩
  | wave hp rest i hi lo ht => subst ht; exact .inl ⟨rfl, rfl, rfl⟩
  | render hr _ _ => exact .inr (.inl hr)
  | reset hr _ _ => exact .inr (.inr hr)

/-- The waveform is written by the host and another agent alone, reset leaves it (R59, R220). -/
theorem StepEffect.wave_kept {s t : State} (h : StepEffect s t) :
    s.waveWriting ∨ t.waveHi = s.waveHi ∧ t.waveLo = s.waveLo := by
  cases h with
  | quiet rest a ht => subst ht; exact .inr ⟨rfl, rfl⟩
  | register r d rest hr hp hw =>
    have hkept := writeReg_registerWrite hr hw
    exact .inr ⟨hkept.waveHi, hkept.waveLo⟩
  | wave hp rest i hi lo ht => exact .inl hp
  | render _ _ hwave => exact hwave
  | reset _ _ hwave => exact .inr hwave

/-- Settles O47: each kind of step is one of `StepEffect`, which says what it keeps. -/
theorem whoMayChangeWhat : Obligations.WhoMayChangeWhat := by
  intro s t h
  have he := step_effect h
  have hreg : ∀ r : Reg, t.readReg r ≠ s.readReg r →
      (∃ rest, s.pending = .wr r.offset (t.readReg r) :: rest) ∨ s.rendering ∨ s.resetting :=
    fun r hne => (he.register_changed hne).imp_right (.imp_left And.left)
  refine ⟨fun hne => ?_, fun p hp => ?_, fun hne => ?_, fun hne => ?_, fun p hp => ?_, he.hw_eq⟩
  · refine he.results_kept.resolve_left fun ⟨hcount, hshort, hout⟩ => ?_
    exact hne.elim (absurd hcount) (Or.elim · (absurd hshort) (absurd hout))
  · obtain ⟨r, _, rfl⟩ : ∃ r ∈ [Reg.phaseLo, .phaseHi], (r.offset, s.readReg r, t.readReg r) = p := List.mem_map.1 hp
    exact hreg r
  · have hflags := hreg .vflags fun heq => hne (State.vflagsWord_inj heq)
    rwa [State.readReg, State.vflagsWord_eq] at hflags
  · refine he.wave_kept.resolve_right fun ⟨hhi, hlo⟩ => ?_
    exact hne.elim (absurd hhi) (absurd hlo)
  · obtain ⟨r, hr, rfl⟩ : ∃ r ∈ Reg.setup, (r.offset, s.readReg r, t.readReg r) = p := List.mem_map.1 hp
    exact fun hne => (he.register_changed hne).imp_right (Or.resolve_left · fun h => h.2 hr)

/-- Settles O46: the slot loop never clears the latch; beside renders only a VFLAGS write and reset write it. -/
theorem onlyTheHostClearsTheLatch : Obligations.OnlyTheHostClearsTheLatch := by
  refine ⟨fun i s t h => (exec_looped h).1, fun i k ext s t hi h => (exec_looped h).2 k ext hi,
    fun s t h hset hclear => ?_⟩
  have hne : t.hasLooped ≠ s.hasLooped := by simp [hset, hclear]
  cases step_effect h with
  | quiet rest a ht => subst ht; exact absurd rfl hne
  | register r d rest hr hp hw =>
    have hword : t.vflagsWord ≠ s.vflagsWord := fun heq => hne (State.vflagsWord_inj heq)
    obtain ⟨rfl, hd⟩ := writeReg_changed (r' := .vflags) hr hw hword
    refine .inl ⟨d, rest, hp, ?_⟩
    rw [← hd, State.readReg, State.vflagsWord_eq, hclear]
    rfl
  | wave hp rest i hi lo ht => subst ht; exact absurd rfl hne
  | render _ hk _ => exact absurd ((hk.looped hset).trans hset.symm) hne
  | reset hr _ _ => exact .inr hr

end Sys2Proof.Machine
end
